-- ==== Sys2Proof/Word.lean ====
section
/-!
DEFINITION. The widths of the spec (spec/00_scope.md R6, R7): every value is unsigned, bit 0 is the least significant.
-/

namespace Sys2Proof

/-- `u8`, DOC0's `DigestByte`: the unit of input (R6). -/
abbrev Byte := BitVec 8

/-- `u32`, DOC0's `DigestWord`: the datapath's word (R6). -/
abbrev Word := BitVec 32

/-- `u64`: the bit counter and the captured length (R6, R17). -/
abbrev DWord := BitVec 64

/-- The 12-bit command word `cmd[11:0]` of format `CMD12` (spec/30_encoding.md R48, R49). -/
abbrev CmdWord := BitVec 12

end Sys2Proof
end

