-- ==== Sys2Proof/Syntax.lean ====
section
/-!
DEFINITION. The commands of CORE: one constructor for each row of spec/opcode_table.json (spec/30_encoding.md R52).
-/

namespace Sys2Proof

/-- A command of SHA1CORE-CMD revision 1. The only operand is the data byte `b = cmd[7:0]` of the two update commands,
used as it stands (R51). -/
inductive Instr where
  /-- `RESET`, DOC0 `reset()` (R53, R95). -/
  | reset
  /-- `UPDATE b`, DOC0 `update([b], stream = true)` (R54, R96). -/
  | update (b : Byte)
  /-- `UPDATEF b`, DOC0 `update([b], stream = false)` (R54, R97). -/
  | updatef (b : Byte)
  /-- `FINAL`, DOC0 `finalize()` (R55, R98). -/
  | final
  deriving DecidableEq, Repr

end Sys2Proof
end

