-- ==== Sys2Proof/WellFormed.lean ====
section
/-!
DEFINITION. Which 12-bit words are commands (spec/30_encoding.md R52, R56), said by the match and mask pairs of R52 and
independently of the decoder, and which instructions are well formed (all: R51).
-/

namespace Sys2Proof

/-- A row of the opcode map of R52: the word `w` is this row's command exactly when `w AND mask = pattern`. -/
structure OpcodeRow where
  pattern : CmdWord
  mask : CmdWord
  deriving DecidableEq, Repr

/-- `w` is the row's command (R52). -/
def OpcodeRow.covers (r : OpcodeRow) (w : CmdWord) : Bool := w &&& r.mask == r.pattern

/-- The row of each command, from the table of R52. -/
def Instr.row : Instr → OpcodeRow
  | .reset => ⟨0x100#12, 0xFFF#12⟩
  | .update _ => ⟨0x200#12, 0xF00#12⟩
  | .updatef _ => ⟨0x300#12, 0xF00#12⟩
  | .final => ⟨0x400#12, 0xFFF#12⟩

/-- The four rows of R52, in the table's order (the operand plays no part in a row). -/
def opcodeRows : List OpcodeRow :=
  [Instr.row .reset, Instr.row (.update 0), Instr.row (.updatef 0), Instr.row .final]

/-- A word that is one of the four commands; every other word is illegal (R52, R56). -/
def legalWord (w : CmdWord) : Bool := opcodeRows.any (·.covers w)

/-- Every instruction is well formed: the operand is an 8-bit byte and all 256 values are legal data (R51). What can be
malformed is the command word, see `legalWord`. -/
def Instr.wellFormed : Instr → Bool
  | .reset => true
  | .update _ => true
  | .updatef _ => true
  | .final => true

end Sys2Proof
end

