-- ==== Sys2Proof/Decode.lean ====
section
/-!
DEFINITION. The decoder, total on the 4096 command words and refusing by name, and the encoder
(spec/30_encoding.md R49 to R57).
-/

namespace Sys2Proof

/-- Why a word is no command (R56). -/
inductive DecodeError where
  /-- The opcode is `0x0` or one of `0x5` to `0xF`. -/
  | illegalOpcode (op : BitVec 4)
  /-- The opcode is that of `RESET` or `FINAL`, and `arg` is not `0x00`. -/
  | nonzeroArg (op : BitVec 4) (arg : Byte)
  deriving DecidableEq, Repr

/-- Field `op = cmd[11:8]` (R49). -/
def opField (w : CmdWord) : BitVec 4 := w.extractLsb' 8 4

/-- Field `arg = cmd[7:0]` (R49, R51). -/
def argField (w : CmdWord) : Byte := w.extractLsb' 0 8

/-- The word with the given fields, pattern `oooo aaaaaaaa` (R49). -/
def cmdWord (op : BitVec 4) (arg : Byte) : CmdWord := op ++ arg

/-- `i` if `arg` is zero, as `RESET` and `FINAL` require (R56). -/
def withoutOperand (op : BitVec 4) (arg : Byte) (i : Instr) : Except DecodeError Instr :=
  if arg = 0#8 then .ok i else .error (.nonzeroArg op arg)

/-- The decoder: the opcode map of R52. It does not look at the phase (R58). -/
def decode (w : CmdWord) : Except DecodeError Instr :=
  if opField w = 0x1#4 then withoutOperand (opField w) (argField w) .reset
  else if opField w = 0x2#4 then .ok (.update (argField w))
  else if opField w = 0x3#4 then .ok (.updatef (argField w))
  else if opField w = 0x4#4 then withoutOperand (opField w) (argField w) .final
  else .error (.illegalOpcode (opField w))

/-- The encoder, from the encodings of R53, R54, R55. -/
def encode : Instr → CmdWord
  | .reset => cmdWord 0x1#4 0x00#8
  | .update b => cmdWord 0x2#4 b
  | .updatef b => cmdWord 0x3#4 b
  | .final => cmdWord 0x4#4 0x00#8

/-- The instruction the decoder reads from bits `w` numbered as spec/opcode_table.json numbers them. A command is one
12-bit word, so the table's bit `k` is `cmd[k]`; a number of more than 12 bits is no command word (DESIGN CHOICE, safe,
notes/assumptions/9.md). -/
def decodeTableWord (_nbits w : Nat) : Option Instr :=
  if w < 4096 then
    match decode (BitVec.ofNat 12 w) with
    | .ok i => some i
    | .error _ => none
  else none

end Sys2Proof
end

