-- ==== Sys2Proof/Config.lean ====
section
/-!
DEFINITION. What an implementation of the spec may choose: nothing that a result depends on.
Every size and constant is fixed (spec/00_scope.md R6, R31), so there is no configuration field and no free value here.
The three open parameters of the spec (`T_CMD`, `CLK_EDGE`, `RST_POLARITY`, spec/92_eei_decisions.md D11) concern time and
signal levels, which a transaction-level model does not have (R10, R146).
-/

namespace Sys2Proof

/-- Messages shorter than this many bytes leave the 64-bit length unwrapped (R93, R144). -/
abbrev Config.messageBound : Nat := 2 ^ 61

end Sys2Proof
end

