-- ==== Sys2Proof/Machine/State.lean ====
section
/-!
DEFINITION. The state of CORE between commands (spec/10_state.md R15 to R21, R27, R28), the host's pending moves, and the
reasons a step can stop.
-/

namespace Sys2Proof.Machine

/-- `PHASE`, the one flag of CORE (R18). -/
inductive Phase where
  /-- Absorbing a message; the bit is 0. -/
  | OPEN
  /-- Finalised; the bit is 1, and only a reset leaves it. -/
  | DONE
  deriving DecidableEq, Repr

/-- The response a command ends with (R21, R116). There is no fourth value: code 3 is never produced. -/
inductive Response where
  /-- Code 0: the command completed. -/
  | OK
  /-- Code 1: the word is no command (R117). -/
  | InvalidInput
  /-- Code 2: `UPDATE`, `UPDATEF` or `FINAL` after finalisation (R118). -/
  | InvalidState
  deriving DecidableEq, Repr

/-- The hash registers `H[0]` to `H[4]`, DOC0 `h0` to `h4` (R15). -/
structure HashRegs where
  h0 : Word
  h1 : Word
  h2 : Word
  h3 : Word
  h4 : Word
  deriving DecidableEq, Repr

/-- `H[i]` (spec/00_scope.md R9). -/
def HashRegs.get (h : HashRegs) : Fin 5 → Word
  | 0 => h.h0
  | 1 => h.h1
  | 2 => h.h2
  | 3 => h.h3
  | 4 => h.h4

/-- `IV`, the five initial register values (R6, R28). -/
def HashRegs.iv : HashRegs :=
  ⟨0x67452301#32, 0xEFCDAB89#32, 0x98BADCFE#32, 0x10325476#32, 0xC3D2E1F0#32⟩

/-- The one memory, the block buffer: the entries of `BUF` that are state, `PENDING = BUF[0..LEN)`, in index order
(R16, R33). Entry `i` is `BUF[i]`; entries from `LEN` on are not state, so the list itself is the canonical form. -/
abbrev Memory := List Byte

/-- The form the memory has between commands: `LEN` is at most 63 (R16, R19 item 2). -/
abbrev Memory.wf (m : Memory) : Prop := m.length < 64

/-- A move of the HOST, the only other agent (spec/60_exceptions.md R130, spec/70_reset_and_hazards.md R145). -/
inductive HostMove where
  /-- Present one 12-bit word on the command port. -/
  | command (w : CmdWord)
  /-- Assert the hardware reset input `rst` while CORE is idle. -/
  | rst
  /-- Present a word and assert `rst` before its response: the command is abandoned (spec/70_reset_and_hazards.md R134). -/
  | cutCommand (w : CmdWord)
  deriving DecidableEq, Repr

/-- CORE between commands. -/
structure State where
  /-- `H[0..4]` (R15). -/
  h : HashRegs
  /-- `PENDING`, realised as `BUF` and `LEN` (R16). -/
  pending : Memory
  /-- `BITS`, the bits of completed blocks (R17). -/
  bits : DWord
  /-- `PHASE` (R18). -/
  phase : Phase
  /-- `resp`: the response being presented, absent while none is (R21, R48 `resp_valid`). No operation reads it. -/
  resp : Option Response
  /-- Whether a reset has happened since power-up; before it no state element has a specified value (R29, R136). -/
  hasReset : Bool
  /-- The moves the host has yet to make, first move first: "the 'program' is the sequence of words the host chooses to
  present" (R48). The model's own field (DESIGN CHOICE, safe, notes/assumptions/1.md). -/
  port : List HostMove
  deriving DecidableEq, Repr

/-- `LEN`, the number of pending bytes (R16). -/
def State.len (s : State) : Nat := s.pending.length

/-- Why the machine stops. -/
inductive Fault where
  /-- Raised by `UPDATE`, `UPDATEF` and `FINAL` when the buffer already holds 64 bytes or more: `BUF` has no such entry
  (R33) and no rule speaks of such a state. Safe: the model stops; no state that satisfies `State.Inv` raises it. -/
  | noBufferEntry
  deriving DecidableEq, Repr

/-- Why a command has no meaning. -/
inductive Refusal where
  /-- Raised by an arm of `exec` whose instruction has no meaning yet. Safe. No arm raises it. -/
  | notModelled (mnemonic : String)
  /-- Raised by every command word but `RESET` while `hasReset` is false: "no rule of this spec gives a command a result"
  (R136; spec/93_implementation_defined.md U10). Safe. No run from `State.reset` raises it. -/
  | beforeFirstReset
  deriving DecidableEq, Repr

/-- CORE right after the hardware reset (R28, R133): no response is presented and the host has no move in hand. -/
def State.reset : State where
  h := HashRegs.iv
  pending := []
  bits := 0
  phase := .OPEN
  resp := none
  hasReset := true
  port := []

end Sys2Proof.Machine
end

