-- ==== Sys2Proof/Machine/Datapath.lean ====
section
/-!
DEFINITION. The datapath primitives (spec/40_primitives.md R62 to R70): pure 32-bit functions, no flags, no exceptions.
-/

namespace Sys2Proof.Machine

/-- `add32`: the carry out of bit 31 is discarded (R62). -/
def add32 (x y : Word) : Word := x + y

/-- `rotl32(x, n) = x[31-n:0] || x[31:32-n]`, for the amounts 1, 5 and 30 that CORE uses (R64). -/
def rotl32 (x : Word) (n : Nat) : Word := (x <<< n) ||| (x >>> (32 - n))

/-- `not32`: all 32 bits inverted (R66). -/
def not32 (x : Word) : Word := ~~~x

/-- The round function `F(t, b, c, d)`; it has no case for `t >= 80` (R69). -/
def roundF (t : Fin 80) (b c d : Word) : Word :=
  if t.val < 20 then (b &&& c) ||| (not32 b &&& d)
  else if t.val < 40 then b ^^^ c ^^^ d
  else if t.val < 60 then (b &&& c) ||| (b &&& d) ||| (c &&& d)
  else b ^^^ c ^^^ d

/-- The round constant `K(t)`; it has no case for `t >= 80` (R70). -/
def roundK (t : Fin 80) : Word :=
  if t.val < 20 then 0x5A827999#32
  else if t.val < 40 then 0x6ED9EBA1#32
  else if t.val < 60 then 0x8F1BBCDC#32
  else 0xCA62C1D6#32

end Sys2Proof.Machine
end

