-- ==== Sys2Proof/Machine/Operands.lean ====
section
/-!
DEFINITION. Bytes and words (spec/40_primitives.md R71 to R73, spec/20_memory.md R36, R37) and the accesses to the block
buffer. The one operand form of a command, the byte `cmd[7:0]` (R51), is `Sys2Proof.argField` of Decode.lean.
-/

namespace Sys2Proof.Machine

/-- A full buffer: exactly 64 bytes, the only length the block operations have a meaning for (R39, R73). -/
abbrev Block := { p : List Byte // p.length = 64 }

/-- `word_from_bytes`: big-endian (R71). -/
def wordFromBytes (b0 b1 b2 b3 : Byte) : Word := b0 ++ b1 ++ b2 ++ b3

/-- `bytes_from_word`: most significant byte first (R72). -/
def bytesFromWord (w : Word) : List Byte :=
  [w.extractLsb' 24 8, w.extractLsb' 16 8, w.extractLsb' 8 8, w.extractLsb' 0 8]

/-- The bytes in groups of four, each a word; used on a multiple of 4 bytes only. -/
def groupWords : List Byte → List Word
  | b0 :: b1 :: b2 :: b3 :: rest => wordFromBytes b0 b1 b2 b3 :: groupWords rest
  | _ => []

/-- A multiple of 4 bytes is grouped without a remainder. -/
theorem groupWords_length (n : Nat) (p : List Byte) (h : p.length = 4 * n) : (groupWords p).length = n := by
  induction n generalizing p with
  | zero => simp [List.length_eq_zero_iff.mp (by simpa using h), groupWords]
  | succ n ih =>
    match p, h with
    | b0 :: b1 :: b2 :: b3 :: rest, h => simp [groupWords, ih rest (by simp at h; omega)]
    | [], h | [_], h | [_, _], h | [_, _, _], h => simp at h <;> omega

/-- `words_from_bytes`; no meaning on a length that is not a multiple of 4 (R73, spec/93_implementation_defined.md U1). -/
def wordsFromBytes (p : List Byte) : Option (List Word) :=
  if p.length % 4 = 0 then some (groupWords p) else none

/-- `MemRead(4*i, 4)` on a full buffer (R36). -/
def memReadWord (blk : Block) (i : Fin 16) : Word :=
  have hlen := blk.property
  wordFromBytes (blk.val[4 * i.val]'(by omega)) (blk.val[4 * i.val + 1]'(by omega))
    (blk.val[4 * i.val + 2]'(by omega)) (blk.val[4 * i.val + 3]'(by omega))

/-- `BUF[i]`, where it is state (R16). -/
def memReadByte (m : Memory) (i : Nat) : Option Byte := m[i]?

/-- `MemWrite(LEN, 1, b)` followed by the growth of `LEN`: the store is always at index `LEN` (R34). -/
def memAppend (m : Memory) (b : Byte) : Memory := m ++ [b]

/-- The length field: `L` as two big-endian words, high word first (R37). -/
def lengthField (l : DWord) : List Byte :=
  bytesFromWord (l.extractLsb' 32 32) ++ bytesFromWord (l.extractLsb' 0 32)

/-- Byte `k` of the length field, `L[63-8k : 56-8k]` (R37). -/
def lengthByte (l : DWord) (k : Fin 8) : Byte := l.extractLsb' (56 - 8 * k.val) 8

end Sys2Proof.Machine
end

