-- ==== Sys2Proof/Machine/Compress.lean ====
section
/-!
DEFINITION. The 80-round compression of one block (spec/41_compression.md R76 to R82).
The working variables and the schedule are values inside the computation, not state (spec/10_state.md R22 to R24).
-/

namespace Sys2Proof.Machine

/-- The working variables `A, B, C, D, E` (R22). -/
structure Working where
  a : Word
  b : Word
  c : Word
  d : Word
  e : Word
  deriving DecidableEq, Repr

/-- `LoadBlock`: `W[0..15]`, the 16 big-endian words of the block (R76). -/
def loadBlock (blk : Block) : Vector Word 16 :=
  ⟨((List.finRange 16).map (memReadWord blk)).toArray, by simp⟩

/-- `W[n+16]` from the words before it (R77, with `t = n + 16`). -/
def scheduleWord (n : Nat) (w : Vector Word (16 + n)) : Word :=
  rotl32 (w[n + 13] ^^^ w[n + 8] ^^^ w[n + 2] ^^^ w[n]) 1

/-- `Expand`, its first `n` steps in ascending order: `W[0..15+n]` (R77). -/
def expand (blk : Block) : (n : Nat) → Vector Word (16 + n)
  | 0 => loadBlock blk
  | n + 1 => (expand blk n).push (scheduleWord n (expand blk n))

/-- The message schedule `W[0..79]` (R23, R76, R77). -/
def schedule (blk : Block) : Vector Word 80 := expand blk 64

/-- `InitWorking` (R78). -/
def initWorking (h : HashRegs) : Working := ⟨h.h0, h.h1, h.h2, h.h3, h.h4⟩

/-- `TEMP` of round `t` (R79); the five terms are added modulo `2^32` (R63). -/
def roundTemp (t : Fin 80) (w : Word) (v : Working) : Word :=
  rotl32 v.a 5 + v.e + w + roundK t + roundF t v.b v.c v.d

/-- `Round(t)` with `W[t] = w`: all five variables from the values before the round (R79). -/
def roundStep (t : Fin 80) (w : Word) (v : Working) : Working :=
  ⟨roundTemp t w v, v.a, rotl32 v.b 30, v.c, v.d⟩

/-- `Rounds`: `Round(0)` to `Round(79)` in that order, round `t` with `W[t]` (R80). -/
def rounds (w : Vector Word 80) (v : Working) : Working :=
  (List.finRange 80).foldl (fun v t => roundStep t w[t] v) v

/-- `Accumulate`: five independent additions (R81). -/
def accumulate (h : HashRegs) (v : Working) : HashRegs :=
  ⟨add32 h.h0 v.a, add32 h.h1 v.b, add32 h.h2 v.c, add32 h.h3 v.d, add32 h.h4 v.e⟩

/-- The compression without the match below. -/
def compressRounds (h : HashRegs) (blk : Block) : HashRegs :=
  accumulate h (rounds (schedule blk) (initWorking h))

/-- `Compress(h, blk)`: the rounds run on a copy of `h`, which changes only in the accumulation (R82). The match on the
block's bytes has one possible case; it keeps Lean from running 80 rounds on an unknown block. -/
def compress (h : HashRegs) (blk : Block) : HashRegs :=
  match blk with
  | ⟨[], empty⟩ => nomatch empty
  | ⟨b :: bs, full⟩ => compressRounds h ⟨b :: bs, full⟩

theorem compress_eq (h : HashRegs) (blk : Block) :
    compress h blk = accumulate h (rounds (schedule blk) (initWorking h)) := by
  match blk with
  | ⟨_ :: _, _⟩ => rfl

end Sys2Proof.Machine
end

