-- ==== Sys2Proof/Machine/Flags.lean ====
section
/-!
DEFINITION. The one flag, `PHASE` (spec/10_state.md R18), and the response codes (R21, R116). There are no arithmetic
flags: every addition discards its carry (spec/40_primitives.md R62).
-/

namespace Sys2Proof.Machine

/-- `PHASE` as its bit: `OPEN = 0`, `DONE = 1` (R18). -/
def phaseBit : Phase → BitVec 1
  | .OPEN => 0#1
  | .DONE => 1#1

/-- The 2-bit code `resp[1:0]` (R21, R116). -/
def responseCode : Response → BitVec 2
  | .OK => 0#2
  | .InvalidInput => 1#2
  | .InvalidState => 2#2

end Sys2Proof.Machine
end

