-- ==== Sys2Proof/Machine/Ops.lean ====
section
/-!
DEFINITION. The named operations on the state: field updates, responding and raising (spec/60_exceptions.md R116 to R124),
reset (spec/70_reset_and_hazards.md R132), absorbing a byte and finalising (spec/42_commands.md R86 to R88).
-/

namespace Sys2Proof.Machine

/-! Field updates. -/

/-- `H <- h`. -/
def State.setHash (h : HashRegs) (s : State) : State := { s with h := h }

/-- `PENDING <- m`. -/
def State.setPending (m : Memory) (s : State) : State := { s with pending := m }

/-- `BITS <- n`. -/
def State.setBits (n : DWord) (s : State) : State := { s with bits := n }

/-- `PHASE <- p`. -/
def State.setPhase (p : Phase) (s : State) : State := { s with phase := p }

/-- Present a response, or none. -/
def State.setResp (r : Option Response) (s : State) : State := { s with resp := r }

/-- Record whether a reset has happened since power-up. -/
def State.setHasReset (r : Bool) (s : State) : State := { s with hasReset := r }

/-- The host's moves yet to come. -/
def State.setPort (p : List HostMove) (s : State) : State := { s with port := p }

/-! Responses and exceptions. -/

/-- `respond r`: the command ends with response `r` (R21). -/
def respond (r : Response) (s : State) : State := s.setResp (some r)

/-- `raise`: taking an exception. The command ends at once with the exception's response and nothing else changes: no
register is saved, no mode changes, control goes nowhere (R119, R123). There is no return: CORE is idle again (R124). -/
def raise (e : Response) (s : State) : Host.Outcome State Fault Refusal := .next (respond e s)

/-! Reset. -/

/-- The effect of a reset on CORE's own state, the same for `rst` and `RESET`; it reads none of it (R28, R95, R132). -/
def resetCore (s : State) : State :=
  ((((s.setHash HashRegs.iv).setPending []).setBits 0).setPhase .OPEN).setHasReset true

/-- The hardware reset input: as `RESET`, but no response is given (R28, R132). -/
def hardwareReset (s : State) : State := (resetCore s).setResp none

/-- No word is presented: CORE stays idle, and no response is presented any longer (R48: `resp_valid` is 1 only when a
command ends). -/
def idle (s : State) : State := s.setResp none

/-! Absorbing. -/

/-- `ProcessBlock` and the counting of the block: `H <- Compress(H, blk)`, `BITS <- (BITS + 512) mod 2^64` (R82, R86). -/
def consumeBlock (blk : Block) (s : State) : State :=
  (s.setHash (compress s.h blk)).setBits (s.bits + 512)

/-- `AbsorbByte(b)` (R86): store the byte at index `LEN`; the byte that fills the buffer has the block processed and the
buffer emptied. -/
def absorbByte (b : Byte) (s : State) : State :=
  let p := memAppend s.pending b
  if h : p.length = 64 then (consumeBlock ⟨p, h⟩ s).setPending [] else s.setPending p

/-- `AbsorbBytes(m)`: the bytes of `m` in order (R87). -/
def absorbBytes (m : List Byte) (s : State) : State := m.foldl (fun s b => absorbByte b s) s

/-- The first 64 bytes of a sequence that has them. -/
def firstBlock (p : List Byte) (h : 64 ≤ p.length) : Block := ⟨p.take 64, by simp; omega⟩

/-- DOC0's block-processing loop: while at least 64 bytes remain at the front of `p`, process and consume them; what
remains is `PENDING` (R88 step 5). At most `fuel` blocks are processed; the callers give one unit for each block. -/
def drain : (fuel : Nat) → List Byte → State → State
  | 0, p, s => s.setPending p
  | fuel + 1, p, s =>
    if h : 64 ≤ p.length then drain fuel (p.drop 64) (consumeBlock (firstBlock p h) s)
    else s.setPending p

/-- DOC0's `update(m)` on a whole sequence: append, then drain the complete blocks (R87). -/
def updateSequence (m : List Byte) (s : State) : State :=
  drain ((s.pending ++ m).length / 64) (s.pending ++ m) s

/-! Finalising. -/

/-- `L = (BITS + 8 * LEN) mod 2^64` (R67, R88 step 1). -/
def finalBitLength (s : State) : DWord := s.bits + 8 * BitVec.ofNat 64 s.len

/-- R88 step 3: append `0x00` while `(|P| + 8) mod 64` is not zero, at most `fuel` times. -/
def zeroFill : (fuel : Nat) → List Byte → List Byte
  | 0, p => p
  | fuel + 1, p => if (p.length + 8) % 64 = 0 then p else zeroFill fuel (p ++ [0x00#8])

/-- `P` after R88 step 4: the pending bytes, `0x80`, the zero fill, the length field. The fill takes at most 63 bytes. -/
def paddedMessage (s : State) : List Byte :=
  zeroFill 63 (s.pending ++ [0x80#8]) ++ lengthField (finalBitLength s)

/-- `Finalize()` in its normative form (R88). -/
def finalize (s : State) : State :=
  (drain ((paddedMessage s).length / 64) (paddedMessage s) s).setPhase .DONE

/-- Absorb a byte and finalise, in one command (R97). -/
def absorbAndFinalize (b : Byte) (s : State) : State := finalize (absorbByte b s)

/-! The checks before a command that absorbs or finalises. -/

/-- Run `k` and respond `OK` if the phase is `OPEN`; raise `InvalidState` if it is `DONE`. Both checks come before any
effect (R118, R122, R123). Before the first reset there is no result (R136), and a buffer that already holds 64 bytes has no
entry to store to (R33). -/
def whenOpen (k : State → State) (s : State) : Host.Outcome State Fault Refusal :=
  if s.hasReset = false then .refused .beforeFirstReset
  else if s.phase = .DONE then raise .InvalidState s
  else if 64 ≤ s.len then .fault .noBufferEntry
  else .next (respond .OK (k s))

/-- An illegal word answers `InvalidInput` in any phase and changes nothing (R56, R117). -/
def answerIllegal (s : State) : Host.Outcome State Fault Refusal :=
  if s.hasReset = false then .refused .beforeFirstReset else raise .InvalidInput s

end Sys2Proof.Machine
end

