-- ==== Sys2Proof/Machine/Commands.lean ====
section
/-!
DEFINITION. The meanings of the four commands (spec/42_commands.md R95 to R98).
-/

namespace Sys2Proof.Machine

/-- `RESET` (R95): defined in every state, before the first reset too (R136), and never an error. -/
def execReset (s : State) : Host.Outcome State Fault Refusal := .next (respond .OK (resetCore s))

/-- `UPDATE b` (R96). -/
def execUpdate (b : Byte) (s : State) : Host.Outcome State Fault Refusal := whenOpen (absorbByte b) s

/-- `UPDATEF b` (R97). -/
def execUpdatef (b : Byte) (s : State) : Host.Outcome State Fault Refusal := whenOpen (absorbAndFinalize b) s

/-- `FINAL` (R98). -/
def execFinal (s : State) : Host.Outcome State Fault Refusal := whenOpen finalize s

end Sys2Proof.Machine
end

