-- ==== Sys2Proof/Machine/Dispatch.lean ====
section
/-!
DEFINITION. The meaning of each command: one arm for each constructor of `Instr`.
-/

namespace Sys2Proof.Machine

def exec (i : Instr) (s : State) : Host.Outcome State Fault Refusal :=
  match i with
  | .reset => Sys2Proof.Machine.execReset s
  | .update b => Sys2Proof.Machine.execUpdate b s
  | .updatef b => Sys2Proof.Machine.execUpdatef b s
  | .final => Sys2Proof.Machine.execFinal s

end Sys2Proof.Machine
end

