-- ==== Sys2Proof/Machine/Step.lean ====
section
/-!
DEFINITION. One step: the host's next move, taken to completion (spec/00_scope.md R10, spec/60_exceptions.md R122).
-/

namespace Sys2Proof.Machine

/-- A command word is decoded first; an illegal word is answered, a command is executed (R122). -/
def runWord (w : CmdWord) (s : State) : Host.Outcome State Fault Refusal :=
  match decode w with
  | .ok i => exec i s
  | .error _ => answerIllegal s

/-- One step: CORE takes the host's next move, or is idle when there is none. -/
def step (s : State) : Host.Outcome State Fault Refusal :=
  match s.port with
  | [] => .next (idle s)
  | .rst :: rest => .next (hardwareReset (s.setPort rest))
  | .cutCommand _ :: rest => .next (hardwareReset (s.setPort rest))
  | .command w :: rest => runWord w (s.setPort rest)

/-- The host presents `w` as its very next move. -/
def State.withFetchWord (s : State) (_nbits w : Nat) : State :=
  s.setPort (.command (BitVec.ofNat 12 w) :: s.port)

end Sys2Proof.Machine
end

