-- ==== Sys2Proof/Machine/Buffer.lean ====
section
/-!
DEFINITION. The hardware realisation of `PENDING` (spec/10_state.md R16, spec/20_memory.md R33, R34): a 64-entry byte
memory `BUF` and a 6-bit length register `LEN`. The machine's state holds `PENDING` itself, as R16 advises; this file gives
the storage behind it, so that a statement can say that it realises `PENDING`.
-/

namespace Sys2Proof.Machine

/-- `BUF[0..63]` and `LEN` (R16). -/
structure BlockBuffer where
  buf : Vector Byte 64
  len : BitVec 6
  deriving DecidableEq, Repr

/-- `PENDING = BUF[0..LEN)` (R16). -/
def bufferPending (x : BlockBuffer) : List Byte := x.buf.toList.take x.len.toNat

/-- `BUF[LEN] <- b` (R34). -/
def bufferStore (b : Byte) (x : BlockBuffer) : Vector Byte 64 :=
  x.buf.set x.len.toNat b (by have := x.len.isLt; omega)

/-- All 64 entries at once, as `ProcessBlock` reads them (R34). -/
def bufferBlock (v : Vector Byte 64) : Block := ⟨v.toList, by simp⟩

/-- The storage part of `AbsorbByte(b)`: store, then `LEN` goes up by one, or back to 0 with a full block to process
(R34, R86). -/
def bufferAbsorb (b : Byte) (x : BlockBuffer) : BlockBuffer × Option Block :=
  if x.len = 63#6 then (⟨bufferStore b x, 0#6⟩, some (bufferBlock (bufferStore b x)))
  else (⟨bufferStore b x, x.len + 1#6⟩, none)

end Sys2Proof.Machine
end

