-- ==== Sys2Proof/Machine/Finalise.lean ====
section
/-!
DEFINITION. The byte-serial finalisation state machine (spec/42_commands.md R89), which the hardware has in place of a
128-byte buffer. The commands use the normative form, `finalize` (R88); R91 says that the two agree.
-/

namespace Sys2Proof.Machine

/-- The position of the finalisation state machine (spec/10_state.md R25, R89). -/
inductive FinPos where
  | S_CAPTURE
  | S_80
  | S_ZERO
  | S_LEN (k : Fin 8)
  | S_DONE
  deriving DecidableEq, Repr

/-- What exists during finalisation: the position, the captured length `L`, and the state (R25). -/
structure FinRun where
  pos : FinPos
  captured : DWord
  core : State
  deriving DecidableEq, Repr

/-- The position after the length byte `k`. -/
def afterLengthByte (k : Fin 8) : FinPos :=
  if h : k.val + 1 < 8 then .S_LEN ⟨k.val + 1, h⟩ else .S_DONE

/-- One transition of the state machine (R89). In `S_DONE` the command ends; a further transition repeats `PHASE <- DONE`. -/
def finTick (r : FinRun) : FinRun :=
  match r.pos with
  | .S_CAPTURE => ⟨.S_80, finalBitLength r.core, r.core⟩
  | .S_80 => ⟨.S_ZERO, r.captured, absorbByte 0x80#8 r.core⟩
  | .S_ZERO =>
    if r.core.len = 56 then ⟨.S_LEN 0, r.captured, r.core⟩
    else ⟨.S_ZERO, r.captured, absorbByte 0x00#8 r.core⟩
  | .S_LEN k => ⟨afterLengthByte k, r.captured, absorbByte (lengthByte r.captured k) r.core⟩
  | .S_DONE => ⟨.S_DONE, r.captured, r.core.setPhase .DONE⟩

/-- `n` transitions. -/
def finTicks : (n : Nat) → FinRun → FinRun
  | 0, r => r
  | n + 1, r => finTicks n (finTick r)

/-- The longest run of the state machine: `S_CAPTURE`, `S_80`, at most 63 zero bytes and the test that ends them, 8 length
bytes, `S_DONE` (R90, R100). -/
def finTickBound : Nat := 75

/-- Finalisation by the state machine, from any value `l` in the capture register (it is written before it is read). -/
def finalizeSerial (l : DWord) (s : State) : FinRun := finTicks finTickBound ⟨.S_CAPTURE, l, s⟩

end Sys2Proof.Machine
end

