-- ==== Sys2Proof/Machine/Outputs.lean ====
section
/-!
DEFINITION. The output ports, as functions of the state (spec/10_state.md R20, R21, spec/42_commands.md R94). Reading them
changes nothing (spec/20_memory.md R41).
-/

namespace Sys2Proof.Machine

/-- `H[0] || H[1] || H[2] || H[3] || H[4]`. -/
def hashBits (h : HashRegs) : BitVec 160 := h.h0 ++ h.h1 ++ h.h2 ++ h.h3 ++ h.h4

/-- The port `digest[159:0]`, at all times driven from the registers (R20). -/
def digest (s : State) : BitVec 160 := hashBits s.h

/-- The port `digest_valid`: 1 exactly when `PHASE = DONE` (R20). -/
def digestValid (s : State) : BitVec 1 := phaseBit s.phase

/-- The digest of the message, which exists only while `digest_valid = 1` (R20, R139). -/
def messageDigest (s : State) : Option (BitVec 160) :=
  if digestValid s = 1#1 then some (digest s) else none

/-- The 20 bytes of the five registers, big-endian (R94). -/
def hashBytes (h : HashRegs) : List Byte :=
  bytesFromWord h.h0 ++ bytesFromWord h.h1 ++ bytesFromWord h.h2 ++ bytesFromWord h.h3 ++ bytesFromWord h.h4

/-- Byte `i` of the digest, `digest[159-8i : 152-8i]` (R20). -/
def digestByte (s : State) (i : Fin 20) : Byte := (digest s).extractLsb' (152 - 8 * i.val) 8

/-- The port `resp[1:0]`, with `resp_valid`: the code while a response is presented (R21, R48). -/
def respPort (s : State) : Option (BitVec 2) := s.resp.map responseCode

/-- The port `cmd_ready`: 1 between commands, which is where every state of the model stands (R48, R138). -/
def cmdReady (_ : State) : BitVec 1 := 1#1

end Sys2Proof.Machine
end

