-- ==== Sys2Proof/Machine/HostSide.lean ====
section
/-!
DEFINITION. Host-side conventions, beside the machine (spec/30_encoding.md R59 to R61, spec/43_host_conventions.md R102 to
R110, R115). Nothing here is inside CORE. Text is a list of characters.
-/

namespace Sys2Proof.Machine

/-! Pseudo-commands (R60). -/

/-- `UPDATES m`: DOC0's `update(m, stream = true)` (R60, R102, R103). -/
def updatesWords (m : List Byte) : List CmdWord := m.map (fun b => encode (.update b))

/-- `HASH m`: DOC0's one-shot `update(m)` (R60, R104). -/
def hashWords : List Byte → List CmdWord
  | [] => [encode .final]
  | [b] => [encode (.updatef b)]
  | b :: c :: m => encode (.update b) :: hashWords (c :: m)

/-- `DIGEST m` (R60). -/
def digestWords (m : List Byte) : List CmdWord := encode .reset :: hashWords m

/-- The host is about to present these words, in order, and nothing else. -/
def State.presenting (ws : List CmdWord) (s : State) : State := s.setPort (ws.map .command)

/-- The outcome when the host presents these words in order, each after the response to the one before (R138). -/
def presentAll (ws : List CmdWord) (s : State) : Host.Outcome State Fault Refusal :=
  Host.Core.run Sys2Proof.core ws.length (s.presenting ws)

/-! The function computed (R115). -/

/-- `P = m ++ [0x80] ++ zeros((55 - |m|) mod 64) ++` the 8 big-endian bytes of `8 * |m|` (R115). -/
def shaPadded (m : List Byte) : List Byte :=
  m ++ [0x80#8] ++ List.replicate ((119 - m.length % 64) % 64) 0x00#8 ++ lengthField (BitVec.ofNat 64 (8 * m.length))

/-- `P[64i .. 64i+64)`. -/
def blockAt (p : List Byte) (i : Nat) (h : 64 * i + 64 ≤ p.length) : Block :=
  ⟨(p.drop (64 * i)).take 64, by simp; omega⟩

/-- `H0 = h`, `H(i+1) = Compress(Hi, P[64i .. 64i+64))`, for the blocks that `P` has (R115). -/
def chainBlocks (h : HashRegs) (p : List Byte) : Nat → HashRegs
  | 0 => h
  | i + 1 => if hb : 64 * i + 64 ≤ p.length then compress (chainBlocks h p i) (blockAt p i hb) else chainBlocks h p i

/-- The registers after the whole padded message, `Hn` with `n = |P| / 64` (R115). -/
def shaRegs (m : List Byte) : HashRegs := chainBlocks HashRegs.iv (shaPadded m) ((shaPadded m).length / 64)

/-! Text and hex (R107 to R110). -/

/-- `bytes_from_text`: each code unit masked to 8 bits; the width of a code unit is not stated, so it is a natural number
(R107, spec/91_not_in_source.md N21). -/
def bytesFromText (units : List Nat) : List Byte := units.map (BitVec.ofNat 8)

/-- The lowercase hex digits. -/
def hexDigits : Vector Char 16 :=
  #v['0', '1', '2', '3', '4', '5', '6', '7', '8', '9', 'a', 'b', 'c', 'd', 'e', 'f']

/-- One lowercase hex digit. -/
def hexDigit (n : BitVec 4) : Char := hexDigits[n.toNat]'n.isLt

/-- `hex_from_bytes`: two lowercase digits a byte, high digit first (R108). -/
def hexFromBytes (m : List Byte) : List Char :=
  m.flatMap (fun b => [hexDigit (b.extractLsb' 4 4), hexDigit (b.extractLsb' 0 4)])

/-- The value of a lowercase hex digit; no meaning on any other character (R109, spec/93_implementation_defined.md U15). -/
def hexValue (c : Char) : Option (BitVec 4) := (hexDigits.toList.idxOf? c).map (BitVec.ofNat 4)

/-- Bytes from pairs of hex digits. -/
def bytesFromHexPairs : List Char → Option (List Byte)
  | [] => some []
  | [_] => none
  | hi :: lo :: rest =>
    match hexValue hi, hexValue lo, bytesFromHexPairs rest with
    | some x, some y, some m => some ((x ++ y) :: m)
    | _, _, _ => none

/-- `bytes_from_hex`: odd-length text gets a leading `0` (R109). -/
def bytesFromHex (text : List Char) : Option (List Byte) :=
  bytesFromHexPairs (if text.length % 2 = 1 then '0' :: text else text)

/-- `binary_text_from_words` (R110). -/
def binaryTextFromWords (ws : List Word) : List Byte := ws.flatMap bytesFromWord

/-- `finalize` as DOC0's software gives it: the raw bytes, or lowercase hex text (R105). -/
def digestText (s : State) : List Char := hexFromBytes (hashBytes s.h)

/-! Assembler text (R59, R61). -/

/-- One upper-case hex digit, as R61's examples write words. -/
def upperHexDigit (n : BitVec 4) : Char := (hexDigit n).toUpper

/-- `0x` and two digits. -/
def byteText (b : Byte) : List Char :=
  ['0', 'x', upperHexDigit (b.extractLsb' 4 4), upperHexDigit (b.extractLsb' 0 4)]

/-- The text of a command (R59). -/
def instrText : Instr → List Char
  | .reset => ['R', 'E', 'S', 'E', 'T']
  | .update b => ['U', 'P', 'D', 'A', 'T', 'E', ' '] ++ byteText b
  | .updatef b => ['U', 'P', 'D', 'A', 'T', 'E', 'F', ' '] ++ byteText b
  | .final => ['F', 'I', 'N', 'A', 'L']

/-- The text of a word: its command, or `ILLEGAL 0x` and three digits (R61). -/
def disassemble (w : CmdWord) : List Char :=
  match decode w with
  | .ok i => instrText i
  | .error _ => ['I', 'L', 'L', 'E', 'G', 'A', 'L', ' ', '0', 'x', upperHexDigit (w.extractLsb' 8 4),
      upperHexDigit (w.extractLsb' 4 4), upperHexDigit (w.extractLsb' 0 4)]

/-- A byte operand: `0x` and two hex digits of either case, or one ASCII character in single quotes (R59). -/
def parseByte : List Char → Option Byte
  | ['0', 'x', hi, lo] =>
    match hexValue hi.toLower, hexValue lo.toLower with
    | some x, some y => some (x ++ y)
    | _, _ => none
  | ['\'', c, '\''] => if c.toNat < 128 then some (BitVec.ofNat 8 c.toNat) else none
  | _ => none

/-- One command in the syntax of R59. -/
def parseCommand : List Char → Option Instr
  | ['R', 'E', 'S', 'E', 'T'] => some .reset
  | ['F', 'I', 'N', 'A', 'L'] => some .final
  | 'U' :: 'P' :: 'D' :: 'A' :: 'T' :: 'E' :: ' ' :: arg => (parseByte arg).map .update
  | 'U' :: 'P' :: 'D' :: 'A' :: 'T' :: 'E' :: 'F' :: ' ' :: arg => (parseByte arg).map .updatef
  | _ => none

/-- A line without its comment, which `;` starts where it is not a character in single quotes (R59). -/
def withoutComment : List Char → List Char
  | '\'' :: c :: '\'' :: rest => '\'' :: c :: '\'' :: withoutComment rest
  | ';' :: _ => []
  | c :: rest => c :: withoutComment rest
  | [] => []

/-- The command on a line, with blanks at either end and a comment allowed (R59). -/
def parseLine (line : List Char) : Option Instr :=
  parseCommand ((((withoutComment line).dropWhile (· == ' ')).reverse.dropWhile (· == ' ')).reverse)

end Sys2Proof.Machine
end

