-- ==== Sys2Proof/Safety.lean ====
section
/-!
DEFINITION. What holds between commands from the first reset on (spec/10_state.md R19), and a step that does not stop.
-/

namespace Sys2Proof.Machine

/-- R19 items 2 to 4 (item 1 holds by the type of the registers), and that a reset has happened. -/
structure State.Inv (s : State) : Prop where
  /-- A reset has happened since power-up (R19: "from the first reset on"). -/
  hasReset : s.hasReset = true
  /-- `0 <= LEN <= 63`. -/
  memory : Memory.wf s.pending
  /-- `BITS mod 512 = 0`. -/
  bits : s.bits.toNat % 512 = 0
  /-- If `PHASE = DONE` then `LEN = 0`. -/
  done : s.phase = .DONE → s.pending = []

/-- The state in which `UPDATE`, `UPDATEF` and `FINAL` execute normally: `PHASE = OPEN` (R96 to R98), after a reset (R136),
with a buffer that has an entry left (R19 item 2). -/
structure State.Ready (s : State) : Prop where
  hasReset : s.hasReset = true
  phase : s.phase = .OPEN
  memory : Memory.wf s.pending

/-- The step neither faults nor is refused: CORE cannot hang or be stuck (spec/42_commands.md R100). -/
def Steps (s : State) : Prop := ∃ t, step s = .next t

end Sys2Proof.Machine
end

