-- ==== Sys2Proof/Certificates/Slice0/Obligations.lean ====
section
/-!
DEFINITION. The statements about the model, each from the numbered rules of spec/ that its docstring names.
Every premise on the state is a field of `State.Ready` or `State.Inv` (Sys2Proof/Safety.lean), or `hasReset`, or the phase.
-/

open Sys2Proof Sys2Proof.Machine

/-! ## Encoding -/

/-- No bit of an encoding is dropped: decoding an encoded instruction gives it back, at every operand (R53 to R55). -/
def Obligations.DecodeOfEncodeIsTheInstruction : Prop :=
  ∀ i : Instr, i.wellFormed = true → decode (encode i) = .ok i

/-- Each word has at most one meaning: a word that decodes is the encoding of what it decodes to (D5: "decoding is injective
on legal words"). -/
def Obligations.EncodeOfDecodeIsTheWord : Prop :=
  ∀ (w : CmdWord) (i : Instr), decode w = .ok i → encode i = w ∧ i.wellFormed = true

/-- The encodings of R53 and R54 and their examples. -/
def Obligations.EncodingsAreTheListedWords : Prop :=
  encode .reset = 0x100#12 ∧ encode .final = 0x400#12 ∧
  (∀ b : Byte, encode (.update b) = 0x200#12 + b.setWidth 12 ∧ encode (.updatef b) = 0x300#12 + b.setWidth 12) ∧
  encode (.update 0x61#8) = 0x261#12 ∧ encode (.updatef 0x63#8) = 0x363#12 ∧ encode (.update 0x00#8) = 0x200#12

/-- R52: a word is command X exactly when `(w AND mask_X) = match_X`, the pairs are disjoint, the operand is `cmd[7:0]`, and
514 of the 4096 words are legal. -/
def Obligations.WordIsACommandExactlyWhenItMatchesItsRow : Prop :=
  opcodeRows = [⟨0x100#12, 0xFFF#12⟩, ⟨0x200#12, 0xF00#12⟩, ⟨0x300#12, 0xF00#12⟩, ⟨0x400#12, 0xFFF#12⟩] ∧
  (∀ w : CmdWord,
    (decode w = .ok .reset ↔ w &&& 0xFFF#12 = 0x100#12) ∧
    (∀ b : Byte, decode w = .ok (.update b) ↔ w &&& 0xF00#12 = 0x200#12 ∧ b = w.extractLsb' 0 8) ∧
    (∀ b : Byte, decode w = .ok (.updatef b) ↔ w &&& 0xF00#12 = 0x300#12 ∧ b = w.extractLsb' 0 8) ∧
    (decode w = .ok .final ↔ w &&& 0xFFF#12 = 0x400#12) ∧
    (legalWord w = true ↔ ∃ i, decode w = .ok i) ∧
    (∀ r ∈ opcodeRows, ∀ r' ∈ opcodeRows, r.covers w = true → r'.covers w = true → r = r')) ∧
  ((List.range 4096).filter (fun n => legalWord (BitVec.ofNat 12 n))).length = 514

/-- R56, R57, R117: which words are illegal, that each answers `InvalidInput` in any phase and changes no state, that no
other word does, and that there are 3582 of them, the all-zero and the all-one word among them. -/
def Obligations.IllegalWordsAnswerInvalidInput : Prop :=
  (∀ w : CmdWord,
    let op := w.extractLsb' 8 4
    let illegal := (op = 0x0#4 ∨ 0x5#4 ≤ op) ∨ ((op = 0x1#4 ∨ op = 0x4#4) ∧ w.extractLsb' 0 8 ≠ 0x00#8)
    (illegal ↔ legalWord w = false) ∧
    (illegal ↔ ∃ e, decode w = .error e) ∧
    (∀ s : State, s.hasReset = true → illegal → runWord w s = .next { s with resp := some .InvalidInput }) ∧
    (∀ s t : State, s.hasReset = true → runWord w s = .next t → (t.resp = some .InvalidInput ↔ illegal))) ∧
  ((List.range 4096).filter (fun n => !legalWord (BitVec.ofNat 12 n))).length = 3582 ∧
  legalWord 0x000#12 = false ∧ legalWord 0xFFF#12 = false

/-- Words written out from the spec's encodings decode to the commands they stand for (R53 to R56). -/
def Obligations.HandWrittenWordsDecode : Prop :=
  decode 0b000100000000#12 = .ok .reset ∧ decode 0b001001100001#12 = .ok (.update 0x61#8) ∧
  decode 0b001101100011#12 = .ok (.updatef 0x63#8) ∧ decode 0b010000000000#12 = .ok .final ∧
  decode 0b000100000001#12 = .error (.nonzeroArg 0x1#4 0x01#8) ∧
  decode 0b010011111111#12 = .error (.nonzeroArg 0x4#4 0xFF#8) ∧
  decode 0b010100000000#12 = .error (.illegalOpcode 0x5#4)

/-- The text of a command reads back as the command, and a command's word disassembles to its text (R59, R61). -/
def Obligations.AssemblerTextReadsBack : Prop :=
  ∀ i : Instr, parseCommand (instrText i) = some i ∧ disassemble (encode i) = instrText i

/-! ## The step -/

/-- A step runs the decoded command, after taking its word off the host's moves, and adds nothing else (R10, R48). -/
def Obligations.StepRunsTheDecodedCommand : Prop :=
  ∀ (s : State) (w : CmdWord) (rest : List HostMove) (i : Instr),
    s.port = .command w :: rest → decode w = .ok i → i.wellFormed = true → step s = exec i { s with port := rest }

/-- With no word presented CORE stays as it is and presents no response (the model's choice: notes/assumptions/2.md). -/
def Obligations.StepWithoutAMoveIsIdle : Prop :=
  ∀ s : State, s.port = [] → step s = .next { s with resp := none }

/-- R132, R134: `rst`, during a command too, has the effect of `RESET` on the state and gives no response. -/
def Obligations.ResetInputActsAsTheResetCommand : Prop :=
  ∀ (s : State) (w : CmdWord) (rest : List HostMove),
    s.port = .rst :: rest ∨ s.port = .cutCommand w :: rest →
    ∃ t u : State, step s = .next t ∧ exec .reset { s with port := rest } = .next u ∧
      u.resp = some .OK ∧ t = { u with resp := none } ∧ t = { State.reset with port := rest }

/-! ## Reset -/

/-- R133: the state after reset, and the outputs it gives. -/
def Obligations.ResetStateHasTheListedValues : Prop :=
  State.reset.h.get 0 = 0x67452301#32 ∧ State.reset.h.get 1 = 0xEFCDAB89#32 ∧ State.reset.h.get 2 = 0x98BADCFE#32 ∧
  State.reset.h.get 3 = 0x10325476#32 ∧ State.reset.h.get 4 = 0xC3D2E1F0#32 ∧
  State.reset.pending = [] ∧ State.reset.len = 0 ∧ State.reset.bits.toNat = 0 ∧ State.reset.phase = .OPEN ∧
  digest State.reset = 0x67452301EFCDAB8998BADCFE10325476C3D2E1F0#160 ∧ digestValid State.reset = 0#1 ∧
  cmdReady State.reset = 1#1

/-- R95: `RESET` completes in every state, before the first reset too, and its effect depends on no piece of CORE's state;
a second `RESET` changes nothing. -/
def Obligations.ResetCommandCompletes : Prop :=
  ∀ s : State, ∃ t : State, exec .reset s = .next t ∧
    t.h.get 0 = 0x67452301#32 ∧ t.h.get 1 = 0xEFCDAB89#32 ∧ t.h.get 2 = 0x98BADCFE#32 ∧ t.h.get 3 = 0x10325476#32 ∧
    t.h.get 4 = 0xC3D2E1F0#32 ∧ t.pending = [] ∧ t.bits = 0 ∧ t.phase = .OPEN ∧ t.resp = some .OK ∧
    t.hasReset = true ∧ t.port = s.port ∧
    digest t = 0x67452301EFCDAB8998BADCFE10325476C3D2E1F0#160 ∧ digestValid t = 0#1 ∧
    exec .reset t = .next t ∧ ∀ s' : State, s'.port = s.port → exec .reset s' = .next t

/-- R136: before the first reset a `RESET` is defined, and no other word has a result. That the model refuses the others is
its reading of spec/93_implementation_defined.md U10 (notes/assumptions/3.md). -/
def Obligations.BeforeTheFirstResetOnlyResetHasAResult : Prop :=
  ∀ (s : State) (w : CmdWord), s.hasReset = false →
    (w = 0x100#12 → runWord w s = .next { State.reset with port := s.port, resp := some .OK }) ∧
    (w ≠ 0x100#12 → runWord w s = .refused .beforeFirstReset)

/-! ## The commands -/

/-- R96: `UPDATE b` answers `InvalidState` and changes nothing in `DONE`; in `OPEN` it stores the byte at index `LEN`, and
the byte that completes a block has it processed in the same command. -/
def Obligations.UpdateAbsorbsOneByte : Prop :=
  (∀ (b : Byte) (s : State), s.hasReset = true → s.phase = .DONE →
    exec (.update b) s = .next { s with resp := some .InvalidState }) ∧
  (∀ (b : Byte) (s : State), s.Ready → s.len < 63 →
    exec (.update b) s = .next { s with pending := s.pending ++ [b], resp := some .OK }) ∧
  (∀ (b : Byte) (s : State) (blk : Block), s.Ready → blk.val = s.pending ++ [b] →
    exec (.update b) s =
      .next { s with h := compress s.h blk, bits := s.bits + 512, pending := [], resp := some .OK })

/-- R97: `UPDATEF b` has exactly the effect of `UPDATE b` followed by `FINAL`, with one response. -/
def Obligations.UpdatefIsUpdateThenFinal : Prop :=
  (∀ (b : Byte) (s : State), s.hasReset = true → s.phase = .DONE →
    exec (.updatef b) s = .next { s with resp := some .InvalidState }) ∧
  (∀ (b : Byte) (s : State), s.Ready →
    ∃ u t : State, exec (.update b) s = .next u ∧ exec .final u = .next t ∧ exec (.updatef b) s = .next t ∧
      t = { finalize (absorbByte b s) with resp := some .OK } ∧ t.phase = .DONE ∧ digestValid t = 1#1)

/-- R98: `FINAL` answers `InvalidState` and changes nothing in `DONE`; in `OPEN` it finalises (R88) and answers `OK`. -/
def Obligations.FinalFinalises : Prop :=
  (∀ s : State, s.hasReset = true → s.phase = .DONE → exec .final s = .next { s with resp := some .InvalidState }) ∧
  (∀ s : State, s.Ready → ∃ t : State, exec .final s = .next t ∧ t = { finalize s with resp := some .OK } ∧
    t.phase = .DONE ∧ digestValid t = 1#1)

/-- R88, step by step: the length is captured before padding; the zero fill stops at the first length that is 8 short of a
block boundary; the padded message is one or two blocks; every block is compressed and counted; the buffer ends empty and the
phase `DONE`. -/
def Obligations.FinalizeFollowsTheSixSteps : Prop :=
  ∀ s : State, Memory.wf s.pending → ∃ z : Nat,
    (∀ k < z, (s.len + 1 + k + 8) % 64 ≠ 0) ∧ (s.len + 1 + z + 8) % 64 = 0 ∧
    let l : DWord := BitVec.ofNat 64 (s.bits.toNat + 8 * s.len)
    let p := s.pending ++ [0x80#8] ++ List.replicate z 0x00#8 ++
      bytesFromWord (l.extractLsb' 32 32) ++ bytesFromWord (l.extractLsb' 0 32)
    (p.length = 64 ∨ p.length = 128) ∧
    finalize s =
      { s with h := chainBlocks s.h p (p.length / 64), bits := s.bits + BitVec.ofNat 64 (512 * (p.length / 64)),
               pending := [], phase := .DONE }

/-- R90, R92: what `FINAL` leaves, with the padding in closed form: one block when `LEN <= 55`, two when `LEN >= 56`. The
closed form is the spec's own inference from R88. -/
def Obligations.FinalProcessesOneOrTwoPaddedBlocks : Prop :=
  (∀ (s : State) (blk : Block), s.Ready → s.len ≤ 55 →
    blk.val = s.pending ++ [0x80#8] ++ List.replicate (55 - s.len) 0x00#8 ++ lengthField (finalBitLength s) →
    exec .final s =
      .next { s with h := compress s.h blk, bits := s.bits + 512, pending := [], phase := .DONE, resp := some .OK }) ∧
  (∀ (s : State) (blk blk' : Block), s.Ready → 56 ≤ s.len →
    blk.val ++ blk'.val =
      s.pending ++ [0x80#8] ++ List.replicate (119 - s.len) 0x00#8 ++ lengthField (finalBitLength s) →
    exec .final s =
      .next { s with h := compress (compress s.h blk) blk', bits := s.bits + 1024, pending := [], phase := .DONE,
                     resp := some .OK })

/-- R147, R30: how many blocks each command counts in `BITS`. -/
def Obligations.BlocksCountedPerCommand : Prop :=
  ∀ (b : Byte) (s : State), s.Ready →
    (∃ t, exec (.update b) s = .next t ∧ t.bits = s.bits + (if s.len = 63 then 512 else 0)) ∧
    (∃ t, exec .final s = .next t ∧ t.bits = s.bits + (if s.len ≤ 55 then 512 else 1024)) ∧
    (∃ t, exec (.updatef b) s = .next t ∧ t.bits = s.bits + (if s.len ≤ 54 then 512 else 1024))

/-- The frame of `UPDATE` (R30, R96): the phase and the host's moves never change; in `OPEN` with room left every register
and counter and every byte of the buffer but the one stored at index `LEN` is unchanged; when the byte completes a block the
buffer is emptied; in `DONE` nothing changes. -/
def Obligations.UpdateFrame : Prop :=
  ∀ (b : Byte) (s t : State), exec (.update b) s = .next t →
    t.phase = s.phase ∧ t.hasReset = s.hasReset ∧ t.port = s.port ∧
    (s.phase = .OPEN → s.len ≠ 63 → t.h = s.h ∧ t.bits = s.bits ∧ memReadByte t.pending s.len = some b ∧
      ∀ a : Nat, a ≠ s.len → memReadByte t.pending a = memReadByte s.pending a) ∧
    (s.phase = .OPEN → s.len = 63 → ∀ a : Nat, memReadByte t.pending a = none) ∧
    (s.phase = .DONE → t.h = s.h ∧ t.bits = s.bits ∧ ∀ a : Nat, memReadByte t.pending a = memReadByte s.pending a)

/-- The frame of `FINAL` and `UPDATEF` (R30, R97, R98): the host's moves never change; in `OPEN` the buffer is emptied and
the phase becomes `DONE`; in `DONE` nothing changes. -/
def Obligations.FinishingFrame : Prop :=
  ∀ (i : Instr) (s t : State), (i = .final ∨ ∃ b, i = .updatef b) → exec i s = .next t →
    t.hasReset = s.hasReset ∧ t.port = s.port ∧ t.phase = .DONE ∧
    (s.phase = .OPEN → ∀ a : Nat, memReadByte t.pending a = none) ∧
    (s.phase = .DONE → t.h = s.h ∧ t.bits = s.bits ∧ ∀ a : Nat, memReadByte t.pending a = memReadByte s.pending a)

/-! ## Errors and the phase machine -/

/-- R118: `InvalidState` is answered exactly when `UPDATE`, `UPDATEF` or `FINAL` is given in `DONE`, and changes nothing;
`RESET` and an illegal word never answer it. -/
def Obligations.InvalidStateExactlyAfterFinalisation : Prop :=
  ∀ (i : Instr) (s : State), s.hasReset = true →
    (i ≠ .reset → s.phase = .DONE → exec i s = .next { s with resp := some .InvalidState }) ∧
    (∀ t : State, exec i s = .next t → (t.resp = some .InvalidState ↔ i ≠ .reset ∧ s.phase = .DONE)) ∧
    (∀ (w : CmdWord) (e : DecodeError) (t : State),
      decode w = .error e → runWord w s = .next t → t.resp ≠ some .InvalidState)

/-- R119: an error records nothing but its response: the state and the outputs are as before, and no later command is
affected by it. -/
def Obligations.ErrorsRecordNothing : Prop :=
  ∀ (w : CmdWord) (s t : State), runWord w s = .next t → t.resp ≠ some .OK →
    t = { s with resp := t.resp } ∧ digest t = digest s ∧ digestValid t = digestValid s ∧
    ∀ w' : CmdWord, runWord w' t = runWord w' s

/-- R99: the phase machine, for every phase and every one of the 4096 words. -/
def Obligations.PhaseMachineTable : Prop :=
  ∀ (w : CmdWord) (s : State), s.Inv → ∃ t : State, runWord w s = .next t ∧
    match decode w with
    | .error _ => t.resp = some .InvalidInput ∧ t.phase = s.phase
    | .ok .reset => t.resp = some .OK ∧ t.phase = .OPEN
    | .ok (.update _) =>
      (s.phase = .OPEN → t.resp = some .OK ∧ t.phase = .OPEN) ∧
      (s.phase = .DONE → t.resp = some .InvalidState ∧ t.phase = .DONE)
    | .ok (.updatef _) =>
      (s.phase = .OPEN → t.resp = some .OK ∧ t.phase = .DONE) ∧
      (s.phase = .DONE → t.resp = some .InvalidState ∧ t.phase = .DONE)
    | .ok .final =>
      (s.phase = .OPEN → t.resp = some .OK ∧ t.phase = .DONE) ∧
      (s.phase = .DONE → t.resp = some .InvalidState ∧ t.phase = .DONE)

/-- R94, R101, R140: once finalised, every step leaves the registers, the buffer, the counter and the phase as they are,
except a reset, after which the state is the reset state. -/
def Obligations.OnlyAResetLeavesDone : Prop :=
  ∀ s t : State, s.hasReset = true → s.phase = .DONE → step s = .next t →
    (t.h = s.h ∧ t.pending = s.pending ∧ t.bits = s.bits ∧ t.phase = .DONE) ∨
    (t = { State.reset with resp := t.resp, port := t.port } ∧
      (s.port.head? = some (.command 0x100#12) ∨ s.port.head? = some .rst ∨
        ∃ w, s.port.head? = some (.cutCommand w)))

/-- R21, R116: every command ends with a response; the code is 0, 1 or 2, never 3; and the response is not state that a
command reads. -/
def Obligations.EveryCommandEndsWithOneResponse : Prop :=
  (∀ (w : CmdWord) (s t : State), runWord w s = .next t →
    ∃ r : Response, t.resp = some r ∧ respPort t = some (responseCode r)) ∧
  responseCode .OK = 0#2 ∧ responseCode .InvalidInput = 1#2 ∧ responseCode .InvalidState = 2#2 ∧
  (∀ r : Response, responseCode r ≠ 3#2) ∧
  (∀ (w : CmdWord) (s : State) (r : Option Response), runWord w { s with resp := r } = runWord w s)

/-- R43: a command's effect does not depend on the words the host has yet to present. -/
def Obligations.LaterMovesDoNotInfluenceACommand : Prop :=
  ∀ (i : Instr) (s t : State) (p : List HostMove),
    exec i s = .next t → t.port = s.port ∧ exec i { s with port := p } = .next { t with port := p }

/-! ## Invariants and stops -/

/-- R19: every step of a state that meets the invariant gives a state that meets it. -/
def Obligations.StepKeepsTheInvariant : Prop :=
  ∀ s t : State, s.Inv → step s = .next t → t.Inv

/-- The reset state meets the invariant (R19, R28). -/
def Obligations.ResetMeetsTheInvariant : Prop := State.reset.Inv

/-- R100, R120: CORE cannot hang or be stuck: from a state that meets the invariant every step gives a next state. -/
def Obligations.InvariantStatesNeverStop : Prop :=
  ∀ s : State, s.Inv → ∃ t : State, step s = .next t ∧ t.Inv

/-- When a command stops: before the first reset (R136), or with a buffer that has no entry left, which the invariant rules
out (the model's own fault: notes/assumptions/4.md). -/
def Obligations.CommandsStopExactlyHere : Prop :=
  ∀ (i : Instr) (s : State),
    (∀ r : Refusal, exec i s = .refused r ↔ i ≠ .reset ∧ s.hasReset = false ∧ r = .beforeFirstReset) ∧
    (∀ f : Fault, exec i s = .fault f ↔
      i ≠ .reset ∧ s.hasReset = true ∧ s.phase = .OPEN ∧ 64 ≤ s.len ∧ f = .noBufferEntry)

/-! ## Datapath -/

/-- R62: `add32` discards the carry out of bit 31. -/
def Obligations.Add32DiscardsTheCarry : Prop :=
  (∀ x y : Word, (add32 x y).toNat = (x.toNat + y.toNat) % 2 ^ 32 ∧ add32 x 0#32 = x) ∧
  add32 0xFFFFFFFF#32 1#32 = 0#32 ∧ add32 0x80000000#32 0x80000000#32 = 0#32 ∧
  add32 0x67452301#32 0xEFCDAB89#32 = 0x5712CE8A#32

/-- R64: `rotl32` by 1, 5 and 30, as the arithmetic formula and as the concatenation; by 30 it is a right rotation by 2. -/
def Obligations.Rotl32RotatesLeft : Prop :=
  ∀ x : Word,
    (∀ n : Nat, n = 1 ∨ n = 5 ∨ n = 30 →
      (rotl32 x n).toNat = (x.toNat * 2 ^ n) % 2 ^ 32 + x.toNat / 2 ^ (32 - n)) ∧
    rotl32 x 1 = x.extractLsb' 0 31 ++ x.extractLsb' 31 1 ∧
    rotl32 x 5 = x.extractLsb' 0 27 ++ x.extractLsb' 27 5 ∧
    rotl32 x 30 = x.extractLsb' 0 2 ++ x.extractLsb' 2 30 ∧
    rotl32 x 30 = x.rotateRight 2

/-- R66: `not32` inverts every bit: `0xFFFFFFFF - x`. -/
def Obligations.Not32InvertsEveryBit : Prop :=
  (∀ x : Word, (not32 x).toNat = 0xFFFFFFFF - x.toNat ∧
    ∀ i : Nat, i < 32 → (not32 x).getLsbD i = !x.getLsbD i) ∧
  not32 0#32 = 0xFFFFFFFF#32 ∧ not32 0xEFCDAB89#32 = 0x10325476#32

/-- R69: `F` bit by bit: choose, parity, majority, parity. -/
def Obligations.RoundFunctionBitByBit : Prop :=
  ∀ (t : Fin 80) (b c d : Word) (i : Nat), i < 32 →
    (roundF t b c d).getLsbD i =
      if t.val < 20 then (if b.getLsbD i then c.getLsbD i else d.getLsbD i)
      else if 40 ≤ t.val ∧ t.val < 60 then
        decide (2 ≤ (b.getLsbD i).toNat + (c.getLsbD i).toNat + (d.getLsbD i).toNat)
      else decide (((b.getLsbD i).toNat + (c.getLsbD i).toNat + (d.getLsbD i).toNat) % 2 = 1)

/-- R70: the round constants, a table indexed by `t div 20`. -/
def Obligations.RoundConstantsByTable : Prop :=
  ∀ t : Fin 80, [0x5A827999#32, 0x6ED9EBA1#32, 0x8F1BBCDC#32, 0xCA62C1D6#32][t.val / 20]? = some (roundK t)

/-- R71, R72: four bytes are one big-endian word, and a word is split most significant byte first. -/
def Obligations.WordsAreBigEndian : Prop :=
  (∀ b0 b1 b2 b3 : Byte, (wordFromBytes b0 b1 b2 b3).toNat =
    b0.toNat * 2 ^ 24 + b1.toNat * 2 ^ 16 + b2.toNat * 2 ^ 8 + b3.toNat) ∧
  (∀ w : Word, (bytesFromWord w).map BitVec.toNat =
    [w.toNat / 2 ^ 24, w.toNat / 2 ^ 16 % 256, w.toNat / 2 ^ 8 % 256, w.toNat % 256]) ∧
  wordFromBytes 0x61#8 0x62#8 0x63#8 0x80#8 = 0x61626380#32 ∧ wordFromBytes 0#8 0#8 0#8 0x18#8 = 0x18#32 ∧
  wordFromBytes 0xFF#8 0#8 0#8 0#8 = 0xFF000000#32 ∧
  bytesFromWord 0xA9993E36#32 = [0xA9#8, 0x99#8, 0x3E#8, 0x36#8] ∧ bytesFromWord 0x18#32 = [0#8, 0#8, 0#8, 0x18#8]

/-- R74: the two conversions are inverse (the spec's own inference from R71 and R72). -/
def Obligations.ByteWordConversionsAreInverse : Prop :=
  (∀ b0 b1 b2 b3 : Byte, bytesFromWord (wordFromBytes b0 b1 b2 b3) = [b0, b1, b2, b3]) ∧
  (∀ w : Word, wordsFromBytes (bytesFromWord w) = some [w])

/-- R73: `words_from_bytes` on a multiple of 4 bytes, and no meaning on any other length. -/
def Obligations.WordsFromBytesGroupsFours : Prop :=
  ∀ p : List Byte,
    (p.length % 4 = 0 → ∃ ws : List Word, wordsFromBytes p = some ws ∧ ws.length = p.length / 4 ∧
      ∀ i : Nat, i < p.length / 4 → ∃ b0 b1 b2 b3 : Byte,
        p[4 * i]? = some b0 ∧ p[4 * i + 1]? = some b1 ∧ p[4 * i + 2]? = some b2 ∧ p[4 * i + 3]? = some b3 ∧
        ws[i]? = some (wordFromBytes b0 b1 b2 b3)) ∧
    (p.length % 4 ≠ 0 → wordsFromBytes p = none)

/-! ## Compression -/

/-- R76, R77: the schedule: the 16 big-endian words of the block, then the recurrence; an all-zero block gives zero words,
an all-`0xFF` block gives `W[16] = 0` and `W[79] = 0xFFFFFFFF`. -/
def Obligations.ScheduleFollowsTheRecurrence : Prop :=
  (∀ blk : Block,
    wordsFromBytes blk.val = some ((schedule blk).toList.take 16) ∧
    (∀ t : Nat, (ht : t < 80) → (h16 : 16 ≤ t) →
      (schedule blk)[t] =
        rotl32 ((schedule blk)[t - 3] ^^^ (schedule blk)[t - 8] ^^^ (schedule blk)[t - 14] ^^^ (schedule blk)[t - 16]) 1) ∧
    (blk.val = List.replicate 64 0x00#8 → ∀ t : Fin 80, (schedule blk)[t] = 0#32) ∧
    (blk.val = List.replicate 64 0xFF#8 → (schedule blk)[16] = 0#32 ∧ (schedule blk)[79] = 0xFFFFFFFF#32))

/-- R79: one round: the five-term sum modulo `2^32`, and all five variables from the values before the round. -/
def Obligations.RoundAssignsAllFiveVariables : Prop :=
  (∀ (t : Fin 80) (w : Word) (v : Working),
    (roundStep t w v).a.toNat = ((rotl32 v.a 5).toNat + v.e.toNat + w.toNat + (roundK t).toNat +
      (roundF t v.b v.c v.d).toNat) % 2 ^ 32 ∧
    (roundStep t w v).b = v.a ∧ (roundStep t w v).c = rotl32 v.b 30 ∧ (roundStep t w v).d = v.c ∧
    (roundStep t w v).e = v.d) ∧
  roundStep 0 0#32 ⟨0#32, 0#32, 0#32, 0#32, 0#32⟩ = ⟨0x5A827999#32, 0#32, 0#32, 0#32, 0#32⟩

/-- R80: exactly the rounds 0 to 79, in that order, round `t` with `W[t]`. -/
def Obligations.EightyRoundsInOrder : Prop :=
  ∀ (w : Vector Word 80) (v : Working), ∃ after : Nat → Working,
    after 0 = v ∧ (∀ t : Fin 80, after (t.val + 1) = roundStep t w[t] (after t.val)) ∧ rounds w v = after 80

/-- R78, R81: the working variables start as a copy of the registers, and the five results are added into the registers
modulo `2^32`. -/
def Obligations.CompressAddsTheRoundsToACopy : Prop :=
  ∀ (h : HashRegs) (blk : Block), ∃ v : Working, v = rounds (schedule blk) ⟨h.h0, h.h1, h.h2, h.h3, h.h4⟩ ∧
    (compress h blk).h0.toNat = (h.h0.toNat + v.a.toNat) % 2 ^ 32 ∧
    (compress h blk).h1.toNat = (h.h1.toNat + v.b.toNat) % 2 ^ 32 ∧
    (compress h blk).h2.toNat = (h.h2.toNat + v.c.toNat) % 2 ^ 32 ∧
    (compress h blk).h3.toNat = (h.h3.toNat + v.d.toNat) % 2 ^ 32 ∧
    (compress h blk).h4.toNat = (h.h4.toNat + v.e.toNat) % 2 ^ 32

/-! ## Buffer, length and digest -/

/-- R67: the captured length never carries between its two terms, and the counter wraps modulo `2^64`. -/
def Obligations.LengthCaptureNeverCarries : Prop :=
  (∀ s : State, s.Inv →
    (finalBitLength s).extractLsb' 0 9 = BitVec.ofNat 9 (8 * s.len) ∧
    (finalBitLength s).extractLsb' 9 55 = s.bits.extractLsb' 9 55 ∧
    (finalBitLength s).extractLsb' 0 3 = 0#3 ∧
    (finalBitLength s).toNat = s.bits.toNat + 8 * s.len) ∧
  (∀ (blk : Block) (s : State), (consumeBlock blk s).bits.toNat = (s.bits.toNat + 512) % 2 ^ 64)

/-- R87: absorbing a sequence byte by byte has the effect of appending it all and draining the complete blocks, and it does
not matter how the sequence is split (the spec's own inference from R86). -/
def Obligations.AbsorbingBytesEqualsDocZeroUpdate : Prop :=
  (∀ (m : List Byte) (s : State), Memory.wf s.pending → absorbBytes m s = updateSequence m s) ∧
  (∀ (m m' : List Byte) (s : State), Memory.wf s.pending →
    updateSequence (m ++ m') s = updateSequence m' (updateSequence m s))

/-- R87, R19 item 5: what absorbing a message of fewer than `2^61` bytes leaves after a reset. -/
def Obligations.AbsorbingAMessageAfterReset : Prop :=
  ∀ m : List Byte, m.length < Config.messageBound →
    (absorbBytes m State.reset).bits.toNat = 512 * (m.length / 64) ∧
    (absorbBytes m State.reset).len = m.length % 64 ∧
    (absorbBytes m State.reset).pending = m.drop (64 * (m.length / 64)) ∧
    (absorbBytes m State.reset).h = chainBlocks HashRegs.iv m (m.length / 64) ∧
    (absorbBytes m State.reset).phase = .OPEN

/-- R93: the captured length is the message length in bits modulo `2^64`, for a message of any length. -/
def Obligations.CapturedLengthIsTheMessageLength : Prop :=
  ∀ m : List Byte, finalBitLength (absorbBytes m State.reset) = BitVec.ofNat 64 (8 * m.length)

/-- R89, R91: the byte-serial state machine ends in `S_DONE` and leaves what the normative form leaves, whatever the capture
register held (the spec's own inference). -/
def Obligations.SerialFinaliserAgreesWithTheNormativeForm : Prop :=
  ∀ (l : DWord) (s : State), Memory.wf s.pending →
    (finalizeSerial l s).pos = .S_DONE ∧ (finalizeSerial l s).core = finalize s

/-- R16, R34, R86: `BUF` and `LEN` realise `PENDING`: storing at index `LEN` appends, a full buffer gives the 64 bytes as a
block and an empty buffer, and entries from `LEN` on do not matter. -/
def Obligations.BlockBufferRealisesPending : Prop :=
  ∀ (b : Byte) (x : BlockBuffer),
    (x.len ≠ 63#6 → (bufferAbsorb b x).2 = none ∧
      bufferPending (bufferAbsorb b x).1 = bufferPending x ++ [b] ∧ (bufferAbsorb b x).1.len = x.len + 1#6) ∧
    (x.len = 63#6 → ∃ blk : Block, (bufferAbsorb b x).2 = some blk ∧ blk.val = bufferPending x ++ [b] ∧
      bufferPending (bufferAbsorb b x).1 = [] ∧ (bufferAbsorb b x).1.len = 0#6) ∧
    (∀ y : BlockBuffer, bufferPending y = bufferPending x → y.len = x.len →
      bufferPending (bufferAbsorb b y).1 = bufferPending (bufferAbsorb b x).1 ∧
      (bufferAbsorb b y).2 = (bufferAbsorb b x).2)

/-- R20: the digest port is the five registers, `H[0]` on top; its byte `i` is byte `i` of their big-endian bytes; the digest
is observed exactly when `PHASE = DONE`. -/
def Obligations.DigestPortShowsTheRegisters : Prop :=
  ∀ s : State,
    (digest s).extractLsb' 128 32 = s.h.get 0 ∧ (digest s).extractLsb' 96 32 = s.h.get 1 ∧
    (digest s).extractLsb' 64 32 = s.h.get 2 ∧ (digest s).extractLsb' 32 32 = s.h.get 3 ∧
    (digest s).extractLsb' 0 32 = s.h.get 4 ∧
    (List.finRange 20).map (digestByte s) = hashBytes s.h ∧ (hashBytes s.h).length = 20 ∧
    (digestValid s = 1#1 ↔ s.phase = .DONE) ∧
    messageDigest s = if s.phase = .DONE then some (digest s) else none

/-! ## The host's view -/

/-- R102, R103: presenting a whole sequence by `UPDATE`s leaves what DOC0's `update` on the sequence leaves, every response
being `OK`; for the empty sequence nothing happens. -/
def Obligations.UpdatesAbsorbTheSequence : Prop :=
  ∀ (m : List Byte) (s : State), s.Ready →
    ∃ t : State, presentAll (updatesWords m) s = .next t ∧
      t = { updateSequence m s with resp := (if m = [] then s.resp else some .OK), port := [] }

/-- R115: the function computed: from any state, `RESET; HASH m` ends finalised with the registers chained over the padded
message (the spec's own inference; premise R144). -/
def Obligations.DigestIsThatOfThePaddedMessage : Prop :=
  ∀ (m : List Byte) (s : State), m.length < Config.messageBound →
    ∃ t : State, presentAll (digestWords m) s = .next t ∧ t.resp = some .OK ∧ digestValid t = 1#1 ∧
      (List.finRange 20).map (digestByte t) = hashBytes (shaRegs m)

/-- R112: chunk invariance: `RESET; HASH m` and `RESET; UPDATES m1; ...; UPDATES mk; FINAL` end with the same digest, for
every split of the message. -/
def Obligations.ChunkingDoesNotChangeTheDigest : Prop :=
  ∀ (chunks : List (List Byte)) (s : State), ∃ t u : State,
    presentAll (digestWords chunks.flatten) s = .next t ∧
    presentAll (encode .reset :: (chunks.flatMap updatesWords ++ [encode .final])) s = .next u ∧
    messageDigest t = some (digest t) ∧ messageDigest u = messageDigest t

/-- R114: after any command sequence, legal or not, `RESET; HASH m` ends with the same digest as on a fresh CORE. -/
def Obligations.ResetForgetsEverythingBefore : Prop :=
  ∀ (ws : List CmdWord) (m : List Byte) (s : State), s.Inv → ∃ t u : State,
    presentAll (ws ++ digestWords m) s = .next t ∧ presentAll (digestWords m) State.reset = .next u ∧
    messageDigest t = some (digest t) ∧ messageDigest t = messageDigest u

/-- R105, R108, R109, R113: hex text of bytes decodes to the bytes, and the digest's text is 40 characters, two for each of
its 20 bytes. -/
def Obligations.HexTextOfTheDigest : Prop :=
  (∀ m : List Byte, bytesFromHex (hexFromBytes m) = some m) ∧
  (∀ s : State, (digestText s).length = 40 ∧ bytesFromHex (digestText s) = some ((List.finRange 20).map (digestByte s)))
end

