-- ==== Sys2Proof/Laws/Compress.lean ====
section
/-!
SUPPORT. The compression's parts: grouping bytes into words, loading a block, the growth of the schedule, and a fold seen as
the sequence of its intermediate values.
-/

namespace Sys2Proof.Machine

/-- Word `i` of a grouped sequence is made of bytes `4i` to `4i+3`. -/
theorem groupWords_getElem? (p : List Byte) (i : Nat) (h : i < p.length / 4) : ∃ b0 b1 b2 b3 : Byte,
    p[4 * i]? = some b0 ∧ p[4 * i + 1]? = some b1 ∧ p[4 * i + 2]? = some b2 ∧ p[4 * i + 3]? = some b3 ∧
    (groupWords p)[i]? = some (wordFromBytes b0 b1 b2 b3) := by
  induction i generalizing p with
  | zero =>
    match p, h with
    | b0 :: b1 :: b2 :: b3 :: _, _ => exact ⟨b0, b1, b2, b3, rfl, rfl, rfl, rfl, rfl⟩
    | [], h | [_], h | [_, _], h | [_, _, _], h => simp at h
  | succ i ih =>
    match p, h with
    | _ :: _ :: _ :: _ :: rest, h => exact ih rest (by simp at h; omega)
    | [], h | [_], h | [_, _], h | [_, _, _], h => simp at h

/-- The words of a block read at the 16 aligned positions are `words_from_bytes` of its bytes. -/
theorem loadBlock_toList (blk : Block) : (loadBlock blk).toList = groupWords blk.val := by
  have hl := groupWords_length 16 blk.val blk.property
  refine List.ext_getElem? fun i => ?_
  by_cases hi : i < 16
  · obtain ⟨b0, b1, b2, b3, h0, h1, h2, h3, h4⟩ := groupWords_getElem? blk.val i (by rw [blk.property]; omega)
    rw [List.getElem?_eq_some_iff] at h0 h1 h2 h3
    obtain ⟨_, rfl⟩ := h0
    obtain ⟨_, rfl⟩ := h1
    obtain ⟨_, rfl⟩ := h2
    obtain ⟨_, rfl⟩ := h3
    rw [h4]
    simp [loadBlock, memReadWord, hi]
  · simp [hi, hl]

/-- A word of the schedule, once computed, stays. -/
theorem expand_add (blk : Block) (n k t : Nat) (h : t < 16 + n) : (expand blk (n + k))[t] = (expand blk n)[t] := by
  induction k with
  | zero => rfl
  | succ k ih =>
    rw [← ih]
    have hb : t < 16 + (n + k) := by omega
    exact Vector.getElem_push_lt hb

/-- The newest word of the schedule. -/
theorem expand_last (blk : Block) (n : Nat) : (expand blk (n + 1))[16 + n] = scheduleWord n (expand blk n) :=
  Vector.getElem_push_eq

/-- However far it is expanded, the schedule begins with the 16 words of the block. -/
theorem expand_take (blk : Block) (n : Nat) : (expand blk n).toList.take 16 = groupWords blk.val := by
  induction n with
  | zero =>
    rw [← loadBlock_toList]
    exact List.take_of_length_le (by simp)
  | succ n ih =>
    rw [← ih, expand, Vector.toList_push, List.take_append_of_le_length (by simp)]

/-- A word of the whole schedule is the word computed by any expansion that reaches it. -/
theorem schedule_getElem (blk : Block) (n t : Nat) (hn : n ≤ 64) (h : t < 16 + n) :
    (schedule blk)[t]'(by omega) = (expand blk n)[t] := by
  have key : ∀ m (hm : m = 64), (expand blk m)[t]'(by omega) = (schedule blk)[t]'(by omega) := by
    intro m hm; subst hm; rfl
  rw [← key (n + (64 - n)) (by omega), expand_add blk n (64 - n) t h]

/-- A fold as the sequence of its intermediate values. -/
theorem foldl_trace {α β : Type} (f : β → α → β) (l : List α) (v : β) :
    ∃ g : Nat → β, g 0 = v ∧ (∀ i (h : i < l.length), g (i + 1) = f (g i) l[i]) ∧ l.foldl f v = g l.length := by
  refine ⟨fun n => (l.take n).foldl f v, rfl, fun i h => ?_, ?_⟩
  · show (l.take (i + 1)).foldl f v = f ((l.take i).foldl f v) l[i]
    rw [List.take_add_one, List.getElem?_eq_getElem h, List.foldl_append]; rfl
  · show _ = (l.take l.length).foldl f v
    rw [List.take_length]

end Sys2Proof.Machine
end

