-- ==== Sys2Proof/Laws/State.lean ====
section
/-!
SUPPORT. What each field update leaves in each field, and that two states with equal fields are equal.
-/

namespace Sys2Proof.Machine

@[ext] theorem State.ext_fields {s t : State} (h : s.h = t.h) (hp : s.pending = t.pending) (hb : s.bits = t.bits)
    (hph : s.phase = t.phase) (hr : s.resp = t.resp) (hs : s.hasReset = t.hasReset) (hpo : s.port = t.port) : s = t := by
  cases s; cases t; simp_all

@[simp] theorem State.setHash_h (h : HashRegs) (s : State) : (s.setHash h).h = h := rfl
@[simp] theorem State.setHash_pending (h : HashRegs) (s : State) : (s.setHash h).pending = s.pending := rfl
@[simp] theorem State.setHash_bits (h : HashRegs) (s : State) : (s.setHash h).bits = s.bits := rfl
@[simp] theorem State.setHash_phase (h : HashRegs) (s : State) : (s.setHash h).phase = s.phase := rfl
@[simp] theorem State.setHash_resp (h : HashRegs) (s : State) : (s.setHash h).resp = s.resp := rfl
@[simp] theorem State.setHash_hasReset (h : HashRegs) (s : State) : (s.setHash h).hasReset = s.hasReset := rfl
@[simp] theorem State.setHash_port (h : HashRegs) (s : State) : (s.setHash h).port = s.port := rfl

@[simp] theorem State.setPending_h (m : Memory) (s : State) : (s.setPending m).h = s.h := rfl
@[simp] theorem State.setPending_pending (m : Memory) (s : State) : (s.setPending m).pending = m := rfl
@[simp] theorem State.setPending_bits (m : Memory) (s : State) : (s.setPending m).bits = s.bits := rfl
@[simp] theorem State.setPending_phase (m : Memory) (s : State) : (s.setPending m).phase = s.phase := rfl
@[simp] theorem State.setPending_resp (m : Memory) (s : State) : (s.setPending m).resp = s.resp := rfl
@[simp] theorem State.setPending_hasReset (m : Memory) (s : State) : (s.setPending m).hasReset = s.hasReset := rfl
@[simp] theorem State.setPending_port (m : Memory) (s : State) : (s.setPending m).port = s.port := rfl

@[simp] theorem State.setBits_h (n : DWord) (s : State) : (s.setBits n).h = s.h := rfl
@[simp] theorem State.setBits_pending (n : DWord) (s : State) : (s.setBits n).pending = s.pending := rfl
@[simp] theorem State.setBits_bits (n : DWord) (s : State) : (s.setBits n).bits = n := rfl
@[simp] theorem State.setBits_phase (n : DWord) (s : State) : (s.setBits n).phase = s.phase := rfl
@[simp] theorem State.setBits_resp (n : DWord) (s : State) : (s.setBits n).resp = s.resp := rfl
@[simp] theorem State.setBits_hasReset (n : DWord) (s : State) : (s.setBits n).hasReset = s.hasReset := rfl
@[simp] theorem State.setBits_port (n : DWord) (s : State) : (s.setBits n).port = s.port := rfl

@[simp] theorem State.setPhase_h (p : Phase) (s : State) : (s.setPhase p).h = s.h := rfl
@[simp] theorem State.setPhase_pending (p : Phase) (s : State) : (s.setPhase p).pending = s.pending := rfl
@[simp] theorem State.setPhase_bits (p : Phase) (s : State) : (s.setPhase p).bits = s.bits := rfl
@[simp] theorem State.setPhase_phase (p : Phase) (s : State) : (s.setPhase p).phase = p := rfl
@[simp] theorem State.setPhase_resp (p : Phase) (s : State) : (s.setPhase p).resp = s.resp := rfl
@[simp] theorem State.setPhase_hasReset (p : Phase) (s : State) : (s.setPhase p).hasReset = s.hasReset := rfl
@[simp] theorem State.setPhase_port (p : Phase) (s : State) : (s.setPhase p).port = s.port := rfl

@[simp] theorem State.setResp_h (r : Option Response) (s : State) : (s.setResp r).h = s.h := rfl
@[simp] theorem State.setResp_pending (r : Option Response) (s : State) : (s.setResp r).pending = s.pending := rfl
@[simp] theorem State.setResp_bits (r : Option Response) (s : State) : (s.setResp r).bits = s.bits := rfl
@[simp] theorem State.setResp_phase (r : Option Response) (s : State) : (s.setResp r).phase = s.phase := rfl
@[simp] theorem State.setResp_resp (r : Option Response) (s : State) : (s.setResp r).resp = r := rfl
@[simp] theorem State.setResp_hasReset (r : Option Response) (s : State) : (s.setResp r).hasReset = s.hasReset := rfl
@[simp] theorem State.setResp_port (r : Option Response) (s : State) : (s.setResp r).port = s.port := rfl

@[simp] theorem State.setHasReset_h (r : Bool) (s : State) : (s.setHasReset r).h = s.h := rfl
@[simp] theorem State.setHasReset_pending (r : Bool) (s : State) : (s.setHasReset r).pending = s.pending := rfl
@[simp] theorem State.setHasReset_bits (r : Bool) (s : State) : (s.setHasReset r).bits = s.bits := rfl
@[simp] theorem State.setHasReset_phase (r : Bool) (s : State) : (s.setHasReset r).phase = s.phase := rfl
@[simp] theorem State.setHasReset_resp (r : Bool) (s : State) : (s.setHasReset r).resp = s.resp := rfl
@[simp] theorem State.setHasReset_hasReset (r : Bool) (s : State) : (s.setHasReset r).hasReset = r := rfl
@[simp] theorem State.setHasReset_port (r : Bool) (s : State) : (s.setHasReset r).port = s.port := rfl

@[simp] theorem State.setPort_h (p : List HostMove) (s : State) : (s.setPort p).h = s.h := rfl
@[simp] theorem State.setPort_pending (p : List HostMove) (s : State) : (s.setPort p).pending = s.pending := rfl
@[simp] theorem State.setPort_bits (p : List HostMove) (s : State) : (s.setPort p).bits = s.bits := rfl
@[simp] theorem State.setPort_phase (p : List HostMove) (s : State) : (s.setPort p).phase = s.phase := rfl
@[simp] theorem State.setPort_resp (p : List HostMove) (s : State) : (s.setPort p).resp = s.resp := rfl
@[simp] theorem State.setPort_hasReset (p : List HostMove) (s : State) : (s.setPort p).hasReset = s.hasReset := rfl
@[simp] theorem State.setPort_port (p : List HostMove) (s : State) : (s.setPort p).port = p := rfl

theorem State.len_eq (s : State) : s.len = s.pending.length := rfl

@[simp] theorem State.setResp_setResp (r r' : Option Response) (s : State) : (s.setResp r').setResp r = s.setResp r := rfl

@[simp] theorem State.setPort_setPort (p p' : List HostMove) (s : State) : (s.setPort p').setPort p = s.setPort p := rfl

@[simp] theorem State.setResp_self (s : State) : s.setResp s.resp = s := rfl

@[simp] theorem State.setPort_self (s : State) : s.setPort s.port = s := rfl

end Sys2Proof.Machine
end

