-- ==== Sys2Proof/Laws/Ops.lean ====
section
/-!
SUPPORT. What the shared operations do, said once: responding and raising, reset, absorbing a byte, the block-processing
loop, finalising, the check `whenOpen`, and the step.
-/

namespace Sys2Proof.Machine

/-! Responding. -/

@[simp] theorem respond_h (r : Response) (s : State) : (respond r s).h = s.h := rfl
@[simp] theorem respond_pending (r : Response) (s : State) : (respond r s).pending = s.pending := rfl
@[simp] theorem respond_bits (r : Response) (s : State) : (respond r s).bits = s.bits := rfl
@[simp] theorem respond_phase (r : Response) (s : State) : (respond r s).phase = s.phase := rfl
@[simp] theorem respond_resp (r : Response) (s : State) : (respond r s).resp = some r := rfl
@[simp] theorem respond_hasReset (r : Response) (s : State) : (respond r s).hasReset = s.hasReset := rfl
@[simp] theorem respond_port (r : Response) (s : State) : (respond r s).port = s.port := rfl

/-! Reset. -/

@[simp] theorem resetCore_h (s : State) : (resetCore s).h = HashRegs.iv := rfl
@[simp] theorem resetCore_pending (s : State) : (resetCore s).pending = [] := rfl
@[simp] theorem resetCore_bits (s : State) : (resetCore s).bits = 0 := rfl
@[simp] theorem resetCore_phase (s : State) : (resetCore s).phase = .OPEN := rfl
@[simp] theorem resetCore_resp (s : State) : (resetCore s).resp = s.resp := rfl
@[simp] theorem resetCore_hasReset (s : State) : (resetCore s).hasReset = true := rfl
@[simp] theorem resetCore_port (s : State) : (resetCore s).port = s.port := rfl

/-- After a reset the state is the reset state, but for the response presented and the host's moves. -/
theorem resetCore_eq (s : State) : resetCore s = (State.reset.setResp s.resp).setPort s.port := rfl

theorem hardwareReset_eq (s : State) : hardwareReset s = State.reset.setPort s.port := rfl

theorem consumeBlock_setResp (blk : Block) (r : Option Response) (s : State) :
    consumeBlock blk (s.setResp r) = (consumeBlock blk s).setResp r := rfl
theorem consumeBlock_setPort (blk : Block) (p : List HostMove) (s : State) :
    consumeBlock blk (s.setPort p) = (consumeBlock blk s).setPort p := rfl

/-! Absorbing a byte. -/

@[simp] theorem consumeBlock_h (blk : Block) (s : State) : (consumeBlock blk s).h = compress s.h blk := rfl
@[simp] theorem consumeBlock_pending (blk : Block) (s : State) : (consumeBlock blk s).pending = s.pending := rfl
@[simp] theorem consumeBlock_bits (blk : Block) (s : State) : (consumeBlock blk s).bits = s.bits + 512 := rfl
@[simp] theorem consumeBlock_phase (blk : Block) (s : State) : (consumeBlock blk s).phase = s.phase := rfl
@[simp] theorem consumeBlock_resp (blk : Block) (s : State) : (consumeBlock blk s).resp = s.resp := rfl
@[simp] theorem consumeBlock_hasReset (blk : Block) (s : State) : (consumeBlock blk s).hasReset = s.hasReset := rfl
@[simp] theorem consumeBlock_port (blk : Block) (s : State) : (consumeBlock blk s).port = s.port := rfl

/-- A byte that does not fill the buffer is stored at index `LEN`, and nothing else happens. -/
theorem absorbByte_of_room {b : Byte} {s : State} (h : s.len < 63) :
    absorbByte b s = s.setPending (s.pending ++ [b]) := by
  have : ¬ (memAppend s.pending b).length = 64 := by simp [memAppend, State.len] at *; omega
  simp only [absorbByte, this, dite_false]
  rfl

/-- A byte that fills the buffer has the block processed and the buffer emptied. -/
theorem absorbByte_of_full {b : Byte} {s : State} {blk : Block} (h : blk.val = s.pending ++ [b]) :
    absorbByte b s = (consumeBlock blk s).setPending [] := by
  have hl : (memAppend s.pending b).length = 64 := by rw [memAppend, ← h]; exact blk.property
  have : (⟨memAppend s.pending b, hl⟩ : Block) = blk := Subtype.ext h.symm
  simp only [absorbByte, hl, dite_true, this]

/-- All that absorbing a byte can do. -/
theorem absorbByte_cases (b : Byte) (s : State) (h : s.len < 64) :
    (s.len < 63 ∧ absorbByte b s = s.setPending (s.pending ++ [b])) ∨
    (s.len = 63 ∧ ∃ blk : Block, blk.val = s.pending ++ [b] ∧ absorbByte b s = (consumeBlock blk s).setPending []) := by
  by_cases h3 : s.len < 63
  · exact .inl ⟨h3, absorbByte_of_room h3⟩
  · have hl : (s.pending ++ [b]).length = 64 := by simp [State.len] at *; omega
    exact .inr ⟨by omega, ⟨_, hl⟩, rfl, absorbByte_of_full rfl⟩

@[simp] theorem absorbByte_phase (b : Byte) (s : State) : (absorbByte b s).phase = s.phase := by
  unfold absorbByte; dsimp only; split <;> rfl
@[simp] theorem absorbByte_resp (b : Byte) (s : State) : (absorbByte b s).resp = s.resp := by
  unfold absorbByte; dsimp only; split <;> rfl
@[simp] theorem absorbByte_hasReset (b : Byte) (s : State) : (absorbByte b s).hasReset = s.hasReset := by
  unfold absorbByte; dsimp only; split <;> rfl
@[simp] theorem absorbByte_port (b : Byte) (s : State) : (absorbByte b s).port = s.port := by
  unfold absorbByte; dsimp only; split <;> rfl

/-- Absorbing a byte keeps the memory's form. -/
theorem absorbByte_keeps_wf (b : Byte) {s : State} (h : Memory.wf s.pending) : Memory.wf (absorbByte b s).pending := by
  rcases absorbByte_cases b s h with ⟨hl, he⟩ | ⟨_, _, _, he⟩ <;> rw [he] <;> simp [State.len] at *
  omega

/-- Absorbing does not read the response or the host's moves. -/
theorem absorbByte_setResp (b : Byte) (r : Option Response) (s : State) :
    absorbByte b (s.setResp r) = (absorbByte b s).setResp r := by
  unfold absorbByte; dsimp only [State.setResp_pending]; split <;> rfl
theorem absorbByte_setPort (b : Byte) (p : List HostMove) (s : State) :
    absorbByte b (s.setPort p) = (absorbByte b s).setPort p := by
  unfold absorbByte; dsimp only [State.setPort_pending]; split <;> rfl

@[simp] theorem absorbBytes_nil (s : State) : absorbBytes [] s = s := rfl
@[simp] theorem absorbBytes_cons (b : Byte) (m : List Byte) (s : State) :
    absorbBytes (b :: m) s = absorbBytes m (absorbByte b s) := rfl

/-! The block-processing loop. -/

theorem drain_of_short {n : Nat} {p : List Byte} {s : State} (h : p.length < 64) : drain n p s = s.setPending p := by
  cases n with
  | zero => rfl
  | succ n => simp [drain, Nat.not_le.mpr h]

theorem drain_of_block {n : Nat} {p : List Byte} {s : State} (h : 64 ≤ p.length) :
    drain (n + 1) p s = drain n (p.drop 64) (consumeBlock (firstBlock p h) s) := by
  simp [drain, h]

@[simp] theorem drain_phase (n : Nat) (p : List Byte) (s : State) : (drain n p s).phase = s.phase := by
  induction n generalizing p s with
  | zero => rfl
  | succ n ih => unfold drain; split <;> simp [ih]
@[simp] theorem drain_resp (n : Nat) (p : List Byte) (s : State) : (drain n p s).resp = s.resp := by
  induction n generalizing p s with
  | zero => rfl
  | succ n ih => unfold drain; split <;> simp [ih]
@[simp] theorem drain_hasReset (n : Nat) (p : List Byte) (s : State) : (drain n p s).hasReset = s.hasReset := by
  induction n generalizing p s with
  | zero => rfl
  | succ n ih => unfold drain; split <;> simp [ih]
@[simp] theorem drain_port (n : Nat) (p : List Byte) (s : State) : (drain n p s).port = s.port := by
  induction n generalizing p s with
  | zero => rfl
  | succ n ih => unfold drain; split <;> simp [ih]

theorem drain_setResp (n : Nat) (p : List Byte) (r : Option Response) (s : State) :
    drain n p (s.setResp r) = (drain n p s).setResp r := by
  induction n generalizing p s with
  | zero => rfl
  | succ n ih =>
    unfold drain
    split
    · rw [consumeBlock_setResp, ih]
    · rfl
theorem drain_setPort (n : Nat) (p : List Byte) (q : List HostMove) (s : State) :
    drain n p (s.setPort q) = (drain n p s).setPort q := by
  induction n generalizing p s with
  | zero => rfl
  | succ n ih =>
    unfold drain
    split
    · rw [consumeBlock_setPort, ih]
    · rfl

/-- With one unit of fuel for each block, the loop leaves what comes after the last complete block. -/
theorem drain_pending {n : Nat} {p : List Byte} {s : State} (h : p.length < 64 * n + 64) :
    (drain n p s).pending = p.drop (64 * (p.length / 64)) := by
  induction n generalizing p s with
  | zero => simp [drain, Nat.div_eq_of_lt (show p.length < 64 by omega)]
  | succ n ih =>
    by_cases hp : 64 ≤ p.length
    · rw [drain_of_block hp, ih (by simp; omega), List.drop_drop, List.length_drop]
      congr 1; omega
    · rw [drain_of_short (by omega), State.setPending_pending, Nat.div_eq_of_lt (by omega)]; rfl

/-- The loop adds 512 for each complete block. -/
theorem drain_bits {n : Nat} {p : List Byte} {s : State} (h : p.length < 64 * n + 64) :
    (drain n p s).bits = s.bits + BitVec.ofNat 64 (512 * (p.length / 64)) := by
  induction n generalizing p s with
  | zero => simp [drain, Nat.div_eq_of_lt (show p.length < 64 by omega)]
  | succ n ih =>
    by_cases hp : 64 ≤ p.length
    · rw [drain_of_block hp, ih (by simp; omega), consumeBlock_bits, List.length_drop,
        show p.length / 64 = (p.length - 64) / 64 + 1 by omega]
      apply BitVec.eq_of_toNat_eq; simp; omega
    · rw [drain_of_short (by omega), State.setPending_bits, Nat.div_eq_of_lt (by omega)]; simp

/-! Finalising. -/

@[simp] theorem finalize_phase (s : State) : (finalize s).phase = .DONE := rfl
@[simp] theorem finalize_resp (s : State) : (finalize s).resp = s.resp := by simp [finalize]
@[simp] theorem finalize_hasReset (s : State) : (finalize s).hasReset = s.hasReset := by simp [finalize]
@[simp] theorem finalize_port (s : State) : (finalize s).port = s.port := by simp [finalize]

theorem finalize_setResp (r : Option Response) (s : State) : finalize (s.setResp r) = (finalize s).setResp r := by
  show (drain _ _ (s.setResp r)).setPhase _ = _
  rw [drain_setResp]; rfl
theorem finalize_setPort (p : List HostMove) (s : State) : finalize (s.setPort p) = (finalize s).setPort p := by
  show (drain _ _ (s.setPort p)).setPhase _ = _
  rw [drain_setPort]; rfl

@[simp] theorem bytesFromWord_length (w : Word) : (bytesFromWord w).length = 4 := rfl
@[simp] theorem lengthField_length (l : DWord) : (lengthField l).length = 8 := rfl

/-- The zero fill with enough fuel appends exactly as many zero bytes as reach 8 short of a block boundary. -/
theorem zeroFill_eq (n : Nat) (p : List Byte) (h : (120 - p.length % 64) % 64 ≤ n) :
    zeroFill n p = p ++ List.replicate ((120 - p.length % 64) % 64) 0x00#8 := by
  induction n generalizing p with
  | zero => simp [zeroFill, Nat.le_zero.mp h]
  | succ n ih =>
    by_cases hp : (p.length + 8) % 64 = 0
    · have : (120 - p.length % 64) % 64 = 0 := by omega
      simp [zeroFill, hp, this]
    · have h1 : (120 - p.length % 64) % 64 = (120 - (p ++ [0x00#8]).length % 64) % 64 + 1 := by simp; omega
      rw [zeroFill, if_neg hp, ih _ (by omega), h1, List.replicate_succ, List.append_assoc]; rfl

/-- The padded message in closed form. -/
theorem paddedMessage_eq (s : State) :
    paddedMessage s = s.pending ++ [0x80#8] ++ List.replicate ((119 - s.len % 64) % 64) 0x00#8 ++
      lengthField (finalBitLength s) := by
  have h : (120 - (s.pending ++ [0x80#8]).length % 64) % 64 = (119 - s.len % 64) % 64 := by simp [State.len]; omega
  rw [paddedMessage, zeroFill_eq _ _ (by omega), h]

/-- The padded message is one or two blocks when `LEN` is at most 63. -/
theorem paddedMessage_length (s : State) (h : s.len < 64) :
    (paddedMessage s).length = if s.len ≤ 55 then 64 else 128 := by
  rw [paddedMessage_eq]; simp [State.len] at *; by_cases h5 : s.pending.length ≤ 55 <;> simp [h5] <;> omega

theorem finalize_pending (s : State) : (finalize s).pending = [] := by
  have hl : (paddedMessage s).length % 64 = 0 := by rw [paddedMessage_eq]; simp [State.len]; omega
  rw [finalize, State.setPhase_pending, drain_pending (by omega)]
  exact List.drop_eq_nil_of_le (by omega)

theorem finalize_bits (s : State) :
    (finalize s).bits = s.bits + BitVec.ofNat 64 (512 * ((paddedMessage s).length / 64)) := by
  rw [finalize, State.setPhase_bits, drain_bits (by omega)]

@[simp] theorem absorbAndFinalize_phase (b : Byte) (s : State) : (absorbAndFinalize b s).phase = .DONE := rfl
@[simp] theorem absorbAndFinalize_resp (b : Byte) (s : State) : (absorbAndFinalize b s).resp = s.resp := by
  simp [absorbAndFinalize]
@[simp] theorem absorbAndFinalize_hasReset (b : Byte) (s : State) : (absorbAndFinalize b s).hasReset = s.hasReset := by
  simp [absorbAndFinalize]
@[simp] theorem absorbAndFinalize_port (b : Byte) (s : State) : (absorbAndFinalize b s).port = s.port := by
  simp [absorbAndFinalize]
theorem absorbAndFinalize_pending (b : Byte) (s : State) : (absorbAndFinalize b s).pending = [] := finalize_pending _
theorem absorbAndFinalize_setResp (b : Byte) (r : Option Response) (s : State) :
    absorbAndFinalize b (s.setResp r) = (absorbAndFinalize b s).setResp r := by
  rw [absorbAndFinalize, absorbByte_setResp, finalize_setResp]; rfl
theorem absorbAndFinalize_setPort (b : Byte) (p : List HostMove) (s : State) :
    absorbAndFinalize b (s.setPort p) = (absorbAndFinalize b s).setPort p := by
  rw [absorbAndFinalize, absorbByte_setPort, finalize_setPort]; rfl

/-! The memory's form. -/

/-- The reset state's memory has the form. -/
theorem reset_memory_wf : Memory.wf State.reset.pending := by decide

/-- Storing keeps the form while an entry is left after the store; the store that fills the buffer is followed by its
emptying in the same operation (`absorbByte_keeps_wf`). -/
theorem memAppend_keeps_wf {m : Memory} (b : Byte) (h : m.length < 63) : Memory.wf (memAppend m b) := by
  simp [memAppend]; omega

theorem resetCore_keeps_wf (s : State) : Memory.wf (resetCore s).pending := by simp
theorem finalize_keeps_wf (s : State) : Memory.wf (finalize s).pending := by rw [finalize_pending]; decide
theorem absorbAndFinalize_keeps_wf (b : Byte) (s : State) : Memory.wf (absorbAndFinalize b s).pending :=
  finalize_keeps_wf _

/-! The check before a command that absorbs or finalises. -/

theorem whenOpen_of_ready {k : State → State} {s : State} (h : s.Ready) : whenOpen k s = .next (respond .OK (k s)) := by
  have hm : ¬ 64 ≤ s.len := Nat.not_le.mpr h.memory
  simp [whenOpen, h.hasReset, h.phase, hm]

theorem whenOpen_of_done {k : State → State} {s : State} (h : s.hasReset = true) (hd : s.phase = .DONE) :
    whenOpen k s = .next (respond .InvalidState s) := by
  simp [whenOpen, h, hd, raise]

/-- All that `whenOpen` can answer with a next state. -/
theorem whenOpen_next {k : State → State} {s t : State} (h : whenOpen k s = .next t) :
    s.hasReset = true ∧ ((s.phase = .DONE ∧ t = respond .InvalidState s) ∨ (s.Ready ∧ t = respond .OK (k s))) := by
  unfold whenOpen at h
  split at h
  · cases h
  · rename_i hr
    have hr : s.hasReset = true := by simpa using hr
    refine ⟨hr, ?_⟩
    split at h
    · rename_i hd
      cases h
      exact .inl ⟨hd, rfl⟩
    · rename_i hd
      split at h
      · cases h
      · rename_i hm
        cases h
        exact .inr ⟨⟨hr, by cases hp : s.phase <;> simp_all, by simp [State.len] at hm; simpa using hm⟩, rfl⟩

/-- What `whenOpen` answers does not depend on the response presented before, if `k` does not. -/
theorem whenOpen_setResp {k : State → State} (hk : ∀ r s, k (State.setResp r s) = (k s).setResp r) (r : Option Response)
    (s : State) : whenOpen k (s.setResp r) = whenOpen k s := by
  have h1 : ∀ q, respond q (s.setResp r) = respond q s := fun _ => rfl
  have h2 : ∀ q, respond q ((k s).setResp r) = respond q (k s) := fun _ => rfl
  unfold whenOpen raise
  rw [hk, h1, h2]; rfl

/-- Nor on the host's later moves. -/
theorem whenOpen_setPort {k : State → State} (hk : ∀ p s, k (State.setPort p s) = (k s).setPort p) (p : List HostMove)
    {s t : State} (h : whenOpen k s = .next t) : whenOpen k (s.setPort p) = .next (t.setPort p) := by
  obtain ⟨hr, ⟨hd, rfl⟩ | ⟨hy, rfl⟩⟩ := whenOpen_next h
  · rw [whenOpen_of_done (by exact hr) (by exact hd)]; rfl
  · rw [whenOpen_of_ready (s := s.setPort p) ⟨hy.hasReset, hy.phase, hy.memory⟩, hk]; rfl

/-! The commands over the shared operations. -/

theorem exec_reset (s : State) : exec .reset s = .next (respond .OK (resetCore s)) := rfl
theorem exec_update (b : Byte) (s : State) : exec (.update b) s = whenOpen (absorbByte b) s := rfl
theorem exec_updatef (b : Byte) (s : State) : exec (.updatef b) s = whenOpen (absorbAndFinalize b) s := rfl
theorem exec_final (s : State) : exec .final s = whenOpen finalize s := rfl

/-- An invariant state is either done or ready. -/
theorem State.Inv.done_or_ready {s : State} (h : s.Inv) : s.phase = .DONE ∨ s.Ready := by
  cases hp : s.phase
  · exact .inr ⟨h.hasReset, hp, h.memory⟩
  · exact .inl rfl

/-! The step. -/

@[simp] theorem runWord_of_ok {w : CmdWord} {i : Instr} (h : decode w = .ok i) (s : State) : runWord w s = exec i s := by
  simp [runWord, h]

@[simp] theorem runWord_of_error {w : CmdWord} {e : DecodeError} (h : decode w = .error e) (s : State) :
    runWord w s = answerIllegal s := by
  simp [runWord, h]

theorem step_of_command {s : State} {w : CmdWord} {rest : List HostMove} (h : s.port = .command w :: rest) :
    step s = runWord w (s.setPort rest) := by
  simp [step, h]

end Sys2Proof.Machine
end

