-- ==== Sys2Proof/Laws/Sequence.lean ====
section
/-!
SUPPORT. The block-processing loop on whole sequences: its registers as a chain of compressions, the loop after an append,
and absorbing byte by byte as one run of the loop.
-/

namespace Sys2Proof.Machine

/-- The loop overwrites the buffer and does not read it. -/
theorem drain_setPending (n : Nat) (p m : List Byte) (s : State) : drain n p (s.setPending m) = drain n p s := by
  induction n generalizing p s with
  | zero => rfl
  | succ n ih =>
    unfold drain
    split
    · rw [show consumeBlock (firstBlock p ‹_›) (s.setPending m) = (consumeBlock (firstBlock p ‹_›) s).setPending m from rfl, ih]
    · rfl

/-- Fuel beyond one unit for each block changes nothing. -/
theorem drain_fuel {n : Nat} {p : List Byte} (s : State) (h : p.length / 64 ≤ n) : drain n p s = drain (p.length / 64) p s := by
  induction n generalizing p s with
  | zero => rw [Nat.le_zero.mp h]
  | succ n ih =>
    by_cases hp : 64 ≤ p.length
    · have hd : p.length / 64 = (p.drop 64).length / 64 + 1 := by simp; omega
      rw [hd, drain_of_block hp, drain_of_block hp, ih _ (by omega)]
    · rw [drain_of_short (by omega), drain_of_short (by omega)]

/-- The first block of a chain may be taken off the front. -/
theorem chainBlocks_succ_front (h : HashRegs) (p : List Byte) (i : Nat) (hp : 64 * i + 64 ≤ p.length) :
    chainBlocks h p (i + 1) = chainBlocks (compress h (firstBlock p (by omega))) (p.drop 64) i := by
  induction i with
  | zero => simp [chainBlocks, show 64 ≤ p.length by omega, blockAt, firstBlock]
  | succ i ih =>
    rw [chainBlocks, dif_pos (by omega), ih (by omega), chainBlocks, dif_pos (by simp; omega)]
    congr 1
    apply Subtype.ext
    simp [blockAt, show 64 + 64 * i = 64 * (i + 1) by omega]

/-- The registers after the loop are the chain of compressions over the complete blocks. -/
theorem drain_h {n : Nat} {p : List Byte} {s : State} (h : p.length / 64 ≤ n) :
    (drain n p s).h = chainBlocks s.h p (p.length / 64) := by
  rw [drain_fuel s h]
  generalize hk : p.length / 64 = k
  clear h
  induction k generalizing p s with
  | zero => rfl
  | succ k ih => rw [drain_of_block (by omega), ih (by simp; omega), chainBlocks_succ_front _ _ _ (by omega)]; rfl

/-- A loop on two sequences is the loop on the first and then, from what it leaves in the buffer, on the second. -/
theorem drain_append (p q : List Byte) (s : State) :
    drain ((p ++ q).length / 64) (p ++ q) s =
      drain (((drain (p.length / 64) p s).pending ++ q).length / 64) ((drain (p.length / 64) p s).pending ++ q)
        (drain (p.length / 64) p s) := by
  generalize hk : p.length / 64 = k
  induction k generalizing p s with
  | zero => rw [show drain 0 p s = s.setPending p from rfl, drain_setPending]; rfl
  | succ k ih =>
    have h64 : 64 ≤ p.length := by omega
    have hk' : (p ++ q).length / 64 = (p.drop 64 ++ q).length / 64 + 1 := by simp; omega
    have hf : firstBlock (p ++ q) (by simp; omega) = firstBlock p h64 := by
      apply Subtype.ext; simp [firstBlock, List.take_append_of_le_length h64]
    rw [hk', drain_of_block (by simp; omega), drain_of_block h64, hf, List.drop_append_of_le_length h64]
    exact ih (p.drop 64) (consumeBlock (firstBlock p h64) s) (by simp; omega)

/-- Absorbing byte by byte is one run of the loop on the pending bytes and the new ones. -/
theorem absorbBytes_eq_drain (m : List Byte) (s : State) (h : Memory.wf s.pending) :
    absorbBytes m s = drain ((s.pending ++ m).length / 64) (s.pending ++ m) s := by
  induction m generalizing s with
  | nil =>
    have hl : (s.pending ++ []).length < 64 := by simpa using h
    rw [drain_of_short hl, List.append_nil]; rfl
  | cons b m ih =>
    rw [absorbBytes_cons, ih _ (absorbByte_keeps_wf b h)]
    rcases absorbByte_cases b s h with ⟨_, he⟩ | ⟨hl, blk, hb, he⟩
    · rw [he, State.setPending_pending, drain_setPending, List.append_assoc]; rfl
    · have hlen : (s.pending ++ [b]).length = 64 := hb ▸ blk.property
      have happ : s.pending ++ b :: m = (s.pending ++ [b]) ++ m := by simp
      have hk : (s.pending ++ b :: m).length / 64 = m.length / 64 + 1 := by rw [happ, List.length_append, hlen]; omega
      have hf : firstBlock (s.pending ++ b :: m) (by rw [happ, List.length_append, hlen]; omega) = blk := by
        apply Subtype.ext
        show List.take 64 (s.pending ++ b :: m) = blk.val
        rw [happ, List.take_left' hlen, hb]
      have hd : (s.pending ++ b :: m).drop 64 = m := by rw [happ, List.drop_left' hlen]
      rw [he, hk, drain_of_block (by rw [happ, List.length_append, hlen]; omega), hf, hd, State.setPending_pending,
        List.nil_append, drain_setPending]

/-- Absorbing a sequence keeps the memory's form. -/
theorem absorbBytes_keeps_wf (m : List Byte) {s : State} (h : Memory.wf s.pending) : Memory.wf (absorbBytes m s).pending := by
  induction m generalizing s with
  | nil => exact h
  | cons b m ih => exact ih (absorbByte_keeps_wf b h)

theorem absorbBytes_append (m m' : List Byte) (s : State) :
    absorbBytes (m ++ m') s = absorbBytes m' (absorbBytes m s) := List.foldl_append

@[simp] theorem absorbBytes_phase (m : List Byte) (s : State) : (absorbBytes m s).phase = s.phase := by
  induction m generalizing s with
  | nil => rfl
  | cons b m ih => simp [ih]
@[simp] theorem absorbBytes_resp (m : List Byte) (s : State) : (absorbBytes m s).resp = s.resp := by
  induction m generalizing s with
  | nil => rfl
  | cons b m ih => simp [ih]
@[simp] theorem absorbBytes_hasReset (m : List Byte) (s : State) : (absorbBytes m s).hasReset = s.hasReset := by
  induction m generalizing s with
  | nil => rfl
  | cons b m ih => simp [ih]
@[simp] theorem absorbBytes_port (m : List Byte) (s : State) : (absorbBytes m s).port = s.port := by
  induction m generalizing s with
  | nil => rfl
  | cons b m ih => simp [ih]

end Sys2Proof.Machine
end

