-- ==== Sys2Proof/Laws/Finalise.lean ====
section
/-!
SUPPORT. The byte-serial finalisation: runs of its transitions, the zero fill, the length bytes, and what it absorbs.
-/

namespace Sys2Proof.Machine

/-- Absorbing a byte moves `LEN` up by one, modulo 64. -/
theorem absorbByte_len (b : Byte) {s : State} (h : Memory.wf s.pending) : (absorbByte b s).len = (s.len + 1) % 64 := by
  rcases absorbByte_cases b s h with ⟨hl, he⟩ | ⟨hl, blk, hb, he⟩ <;> rw [he] <;> simp [State.len] at *
  · omega
  · omega

/-- Transitions in two parts. -/
theorem finTicks_add (n k : Nat) (r : FinRun) : finTicks (n + k) r = finTicks k (finTicks n r) := by
  induction n generalizing r with
  | zero => rw [Nat.zero_add]; rfl
  | succ n ih => rw [Nat.add_right_comm]; exact ih (finTick r)

/-- The first two transitions capture the length and absorb `0x80`. -/
theorem finTicks_capture (l : DWord) (s : State) :
    finTicks 2 ⟨.S_CAPTURE, l, s⟩ = ⟨.S_ZERO, finalBitLength s, absorbByte 0x80#8 s⟩ := rfl

/-- The zero fill absorbs as many zero bytes as bring `LEN` to 56, and then leaves `S_ZERO`. -/
theorem finTicks_zero (z : Nat) (l : DWord) (s : State) (h : Memory.wf s.pending) (hz : (s.len + z) % 64 = 56)
    (hlt : z < 64) :
    finTicks (z + 1) ⟨.S_ZERO, l, s⟩ = ⟨.S_LEN 0, l, absorbBytes (List.replicate z 0x00#8) s⟩ := by
  have hs : s.len < 64 := h
  induction z generalizing s with
  | zero =>
    have h56 : s.len = 56 := by omega
    simp [finTicks, finTick, h56]
  | succ z ih =>
    have h56 : s.len ≠ 56 := by omega
    have hl := absorbByte_len 0x00#8 h
    rw [finTicks, List.replicate_succ, absorbBytes_cons, ← ih _ (absorbByte_keeps_wf _ h) (by rw [hl]; omega) (by omega)
      (absorbByte_keeps_wf _ h)]
    simp [finTick, h56]

/-- The length field is its eight length bytes in order (R37). -/
theorem lengthField_eq (l : DWord) : lengthField l = (List.finRange 8).map (lengthByte l) := by
  have hi : ∀ i k : Nat, i + 8 ≤ 32 → k = 32 + i →
      BitVec.extractLsb' i 8 (BitVec.extractLsb' 32 32 l) = BitVec.extractLsb' k 8 l := by
    intro i k h hk
    subst hk
    ext j hj
    simp [Nat.add_assoc, show i + j < 32 by omega]
  have lo : ∀ i : Nat, i + 8 ≤ 32 →
      BitVec.extractLsb' i 8 (BitVec.extractLsb' 0 32 l) = BitVec.extractLsb' i 8 l := by
    intro i h
    ext j hj
    simp [show i + j < 32 by omega]
  rw [lengthField, bytesFromWord, bytesFromWord, hi 24 56 (by decide) rfl, hi 16 48 (by decide) rfl,
    hi 8 40 (by decide) rfl, hi 0 32 (by decide) rfl, lo 24 (by decide), lo 16 (by decide), lo 8 (by decide),
    lo 0 (by decide)]
  rfl

theorem finTick_length (k : Fin 8) (l : DWord) (s : State) :
    finTick ⟨.S_LEN k, l, s⟩ = ⟨afterLengthByte k, l, absorbByte (lengthByte l k) s⟩ := rfl

/-- From the length byte `k` on, the remaining length bytes are absorbed in order. -/
theorem finTicks_lengthFrom (n : Nat) (k : Fin 8) (l : DWord) (s : State) (h : k.val + n + 1 = 8) :
    finTicks (n + 1) ⟨.S_LEN k, l, s⟩ =
      ⟨.S_DONE, l, absorbBytes (((List.finRange 8).map (lengthByte l)).drop k.val) s⟩ := by
  have hd : ((List.finRange 8).map (lengthByte l)).drop k.val =
      lengthByte l k :: ((List.finRange 8).map (lengthByte l)).drop (k.val + 1) := by
    rw [List.drop_eq_getElem_cons (by simp)]
    simp
  rw [finTicks, finTick_length, hd, absorbBytes_cons]
  induction n generalizing k s with
  | zero =>
    rw [afterLengthByte, dif_neg (by omega), List.drop_of_length_le (by simp; omega)]
    rfl
  | succ n ih =>
    have hk : k.val + 1 < 8 := by omega
    have hd' : ((List.finRange 8).map (lengthByte l)).drop (k.val + 1) =
        lengthByte l ⟨k.val + 1, hk⟩ :: ((List.finRange 8).map (lengthByte l)).drop (k.val + 1 + 1) := by
      rw [List.drop_eq_getElem_cons (by simp; omega)]
      simp
    rw [afterLengthByte, dif_pos hk, finTicks, finTick_length, ih ⟨k.val + 1, hk⟩ _ (by simp; omega) hd', hd']
    rfl

/-- The eight length bytes are absorbed in order. -/
theorem finTicks_length (l : DWord) (s : State) :
    finTicks 8 ⟨.S_LEN 0, l, s⟩ = ⟨.S_DONE, l, absorbBytes (lengthField l) s⟩ := by
  rw [lengthField_eq]
  exact finTicks_lengthFrom 7 0 l s rfl

/-- In `S_DONE` the transitions set the phase and nothing else. -/
theorem finTicks_done (n : Nat) (l : DWord) (s : State) :
    finTicks (n + 1) ⟨.S_DONE, l, s⟩ = ⟨.S_DONE, l, s.setPhase .DONE⟩ := by
  induction n generalizing s with
  | zero => rfl
  | succ n ih => exact ih (s.setPhase .DONE)

end Sys2Proof.Machine
end

