-- ==== Sys2Proof/Laws/PerInstr.lean ====
section
/-!
SUPPORT. Statements about every instruction as syntax, one lemma for each constructor.
-/

namespace Sys2Proof.Laws.EncodeLegal

/-- The word of an instruction is legal by the match and mask pairs of R52, and it is the pattern of the instruction's own
row. -/
def Statement (i : Instr) : Prop := legalWord (encode i) = true ∧ i.row.covers (encode i) = true

theorem reset : Statement .reset := by unfold Statement; decide

theorem update (b : Byte) : Statement (.update b) := by
  have h : ∀ b : BitVec 8, legalWord (encode (.update b)) = true ∧ (Instr.row (.update b)).covers (encode (.update b)) = true := by
    decide
  exact h b

theorem updatef (b : Byte) : Statement (.updatef b) := by
  have h : ∀ b : BitVec 8, legalWord (encode (.updatef b)) = true ∧ (Instr.row (.updatef b)).covers (encode (.updatef b)) = true := by
    decide
  exact h b

theorem final : Statement .final := by unfold Statement; decide

end Sys2Proof.Laws.EncodeLegal
end

