-- ==== Sys2Proof/Laws/Run.lean ====
section
/-!
SUPPORT. Presenting a sequence of command words, one word at a time, and what absorbing and finalising do not read.
-/

namespace Sys2Proof.Machine

/-- A run whose first step answers a next state is the run from that state. -/
theorem run_succ_of_next (M : Host.Core) {s t : M.State} (n : Nat) (h : M.step s = .next t) :
    M.run (n + 1) s = M.run n t := by
  rw [Host.Core.run, h]

/-- Presenting no word leaves the host with no move. -/
@[simp] theorem presentAll_nil (s : State) : presentAll [] s = .next (s.setPort []) := rfl

/-- A word answered with a next state is followed by the other words, presented there. -/
theorem presentAll_cons {w : CmdWord} (ws : List CmdWord) {s t : State}
    (h : runWord w (s.setPort (ws.map .command)) = .next t) (hp : t.port = ws.map .command) :
    presentAll (w :: ws) s = presentAll ws t := by
  have hs : step (s.presenting (w :: ws)) = .next t := by
    rw [step_of_command (w := w) (rest := ws.map .command) rfl]; exact h
  have ht : t.presenting ws = t := by rw [State.presenting, ← hp, State.setPort_self]
  show Host.Core.run Sys2Proof.core (ws.length + 1) (s.presenting (w :: ws)) = _
  rw [presentAll, ht]
  exact run_succ_of_next Sys2Proof.core ws.length hs

/-- What a command answers does not depend on the host's later moves. -/
theorem exec_setPort {i : Instr} {s t : State} (p : List HostMove) (h : exec i s = .next t) :
    exec i (s.setPort p) = .next (t.setPort p) := by
  cases i with
  | reset => cases h; rfl
  | update b => exact whenOpen_setPort (fun p s => absorbByte_setPort b p s) p h
  | updatef b => exact whenOpen_setPort (fun p s => absorbAndFinalize_setPort b p s) p h
  | final => exact whenOpen_setPort (fun p s => finalize_setPort p s) p h

/-- A command answered with a next state is followed by the other words, presented there. -/
theorem presentAll_of_exec {w : CmdWord} {i : Instr} (ws : List CmdWord) {s t : State} (hw : decode w = .ok i)
    (h : exec i s = .next t) : presentAll (w :: ws) s = presentAll ws t := by
  rw [presentAll_cons ws (t := t.setPort (ws.map .command)) (by rw [runWord_of_ok hw]; exact exec_setPort _ h) rfl]
  rfl

theorem absorbBytes_setResp (m : List Byte) (r : Option Response) (s : State) :
    absorbBytes m (s.setResp r) = (absorbBytes m s).setResp r := by
  induction m generalizing s with
  | nil => rfl
  | cons b m ih => rw [absorbBytes_cons, absorbByte_setResp, ih]; rfl

theorem absorbBytes_setPort (m : List Byte) (p : List HostMove) (s : State) :
    absorbBytes m (s.setPort p) = (absorbBytes m s).setPort p := by
  induction m generalizing s with
  | nil => rfl
  | cons b m ih => rw [absorbBytes_cons, absorbByte_setPort, ih]; rfl

/-- A ready state is still ready after a byte. -/
theorem State.Ready.absorb {s : State} (b : Byte) (h : s.Ready) : (respond .OK (absorbByte b s)).Ready :=
  ⟨by simp [h.hasReset], by simp [h.phase], by simpa using absorbByte_keeps_wf b h.memory⟩

/-- After a reset the state is ready. -/
theorem resetCore_ready (r : Response) (s : State) : (respond r (resetCore s)).Ready := ⟨rfl, rfl, by simp⟩

end Sys2Proof.Machine
end

