-- ==== Sys2Proof/Tests/Slice0.lean ====
section
/-!
SUPPORT. Tests: the words and values that the spec itself lists (the rule or the section of spec/95_test_vectors.md stands
at each), and a witness for the hypotheses of each obligation.
-/

namespace Sys2Proof.Tests

open Sys2Proof Sys2Proof.Machine

/-! ## States and checks -/

/-- After a reset and `n` bytes `'a'`, `n` at most 63. -/
def opened (n : Nat) : State := State.reset.setPending (List.replicate n 0x61#8)

/-- The registers after the empty message (P1). -/
def emptyHash : HashRegs := ⟨0xDA39A3EE#32, 0x5E6B4B0D#32, 0x3255BFEF#32, 0x95601890#32, 0xAFD80709#32⟩

/-- After `RESET; FINAL` (P1). -/
def finalised : State := ((State.reset.setHash emptyHash).setBits 512).setPhase .DONE

/-- Powered up and not reset: no state element has a specified value, so this is one of many such states. -/
def unreset : State := State.reset.setHasReset false

/-- The registers after 64 bytes `'a'` (P5, step 65). -/
def chainedHash : HashRegs := ⟨0xDA4968EB#32, 0x2E377C1F#32, 0x884E8F52#32, 0x83524BEB#32, 0xE74EBDBD#32⟩

/-- Whether the outcome is a next state with the property. -/
def goesOn (o : Host.Outcome State Fault Refusal) (p : State → Bool) : Bool :=
  match o with
  | .next t => p t
  | .fault _ => false
  | .refused _ => false

theorem opened_ready (n : Nat) (h : n < 64) : (opened n).Ready := ⟨rfl, rfl, by simpa [opened] using h⟩

theorem finalised_inv : finalised.Inv := ⟨rfl, by decide, by decide, fun _ => rfl⟩

theorem opened_inv (n : Nat) (h : n < 64) : (opened n).Inv :=
  ⟨rfl, by simpa [opened] using h, by simp [opened, State.reset], fun h => nomatch h⟩

/-! ## Encoding (R52 to R56, R61; section 3 of spec/95_test_vectors.md) -/

/-- The well-formedness check of words refuses an opcode `0x0`, an opcode above `0x4`, and an operand of `RESET` or
`FINAL`. -/
theorem test_legalWord_refuses :
    legalWord 0x000#12 = false ∧ legalWord 0x0FF#12 = false ∧ legalWord 0x101#12 = false ∧ legalWord 0x180#12 = false ∧
    legalWord 0x1FF#12 = false ∧ legalWord 0x401#12 = false ∧ legalWord 0x4FF#12 = false ∧ legalWord 0x500#12 = false ∧
    legalWord 0xF00#12 = false ∧ legalWord 0xFFF#12 = false := by decide

theorem test_legalWord_accepts :
    legalWord 0x100#12 = true ∧ legalWord 0x200#12 = true ∧ legalWord 0x2FF#12 = true ∧ legalWord 0x300#12 = true ∧
    legalWord 0x3FF#12 = true ∧ legalWord 0x400#12 = true := by decide

theorem test_decode_reset : decode 0b000100000000#12 = .ok .reset := by decide
theorem test_decode_update : decode 0b001010000000#12 = .ok (.update 0x80#8) := by decide
theorem test_decode_updatef : decode 0b001111111111#12 = .ok (.updatef 0xFF#8) := by decide
theorem test_decode_final : decode 0b010000000000#12 = .ok .final := by decide
theorem test_decode_refuses :
    decode 0x000#12 = .error (.illegalOpcode 0x0#4) ∧ decode 0x561#12 = .error (.illegalOpcode 0x5#4) ∧
    decode 0xFFF#12 = .error (.illegalOpcode 0xF#4) ∧ decode 0x180#12 = .error (.nonzeroArg 0x1#4 0x80#8) ∧
    decode 0x401#12 = .error (.nonzeroArg 0x4#4 0x01#8) := by decide

/-- The words of the table's rows, and numbers that are no command word. -/
theorem test_decodeTableWord :
    decodeTableWord 16 0x100 = some .reset ∧ decodeTableWord 16 0x200 = some (.update 0#8) ∧
    decodeTableWord 16 0x300 = some (.updatef 0#8) ∧ decodeTableWord 16 0x400 = some .final ∧
    decodeTableWord 16 0x500 = none ∧ decodeTableWord 16 0x1100 = none := by decide

/-- Section 3: pseudo-commands. -/
theorem test_pseudo_commands :
    updatesWords [0x68#8, 0x69#8] = [0x268#12, 0x269#12] ∧ hashWords [0x68#8, 0x69#8] = [0x268#12, 0x369#12] ∧
    hashWords [] = [0x400#12] ∧ digestWords [] = [0x100#12, 0x400#12] ∧ digestWords [0x61#8] = [0x100#12, 0x361#12] ∧
    digestWords [0x61#8, 0x62#8, 0x63#8] = [0x100#12, 0x261#12, 0x262#12, 0x363#12] := by decide

/-- R59, R61. -/
theorem test_assembler :
    disassemble 0x261#12 = ['U', 'P', 'D', 'A', 'T', 'E', ' ', '0', 'x', '6', '1'] ∧
    disassemble 0x401#12 = ['I', 'L', 'L', 'E', 'G', 'A', 'L', ' ', '0', 'x', '4', '0', '1'] ∧
    parseCommand ['U', 'P', 'D', 'A', 'T', 'E', ' ', '\'', 'a', '\''] = some (.update 0x61#8) ∧
    parseCommand ['U', 'P', 'D', 'A', 'T', 'E', 'F', ' ', '0', 'x', 'F', 'F'] = some (.updatef 0xFF#8) ∧
    parseLine ['U', 'P', 'D', 'A', 'T', 'E', ' ', '\'', ';', '\'', ' ', ' ', ';', ' ', 'x'] = some (.update 0x3B#8) := by
  decide

/-! ## Datapath (section 2) -/

theorem test_add32 :
    add32 0x67452301#32 0xEFCDAB89#32 = 0x5712CE8A#32 ∧ add32 0x7FFFFFFF#32 0x00000001#32 = 0x80000000#32 ∧
    add32 0xFFFFFFFF#32 0xFFFFFFFF#32 = 0xFFFFFFFE#32 := by decide

theorem test_rotl32 :
    rotl32 0x12345678#32 1 = 0x2468ACF0#32 ∧ rotl32 0x12345678#32 5 = 0x468ACF02#32 ∧
    rotl32 0x12345678#32 30 = 0x048D159E#32 ∧ rotl32 0xC0000003#32 30 = 0xF0000000#32 := by decide

theorem test_not32 : not32 0xEFCDAB89#32 = 0x10325476#32 ∧ not32 0x12345678#32 = 0xEDCBA987#32 := by decide

/-- The truth-table row, at both ends of each range of `t`. -/
theorem test_roundF :
    [0, 19, 20, 39, 40, 59, 60, 79].map (fun t : Fin 80 => roundF t 0xF0F0F0F0#32 0xCCCCCCCC#32 0xAAAAAAAA#32) =
      [0xCACACACA#32, 0xCACACACA#32, 0x96969696#32, 0x96969696#32, 0xE8E8E8E8#32, 0xE8E8E8E8#32, 0x96969696#32,
        0x96969696#32] := by decide

theorem test_roundK :
    [0, 19, 20, 39, 40, 59, 60, 79].map roundK =
      [0x5A827999#32, 0x5A827999#32, 0x6ED9EBA1#32, 0x6ED9EBA1#32, 0x8F1BBCDC#32, 0x8F1BBCDC#32, 0xCA62C1D6#32,
        0xCA62C1D6#32] := by decide

theorem test_words_and_bytes :
    wordFromBytes 0x01#8 0x23#8 0x45#8 0x67#8 = 0x01234567#32 ∧
    bytesFromWord 0xA9993E36#32 = [0xA9#8, 0x99#8, 0x3E#8, 0x36#8] ∧
    wordsFromBytes [0x00#8, 0x01#8, 0x02#8, 0x03#8, 0x04#8, 0x05#8, 0x06#8, 0x07#8] =
      some [0x00010203#32, 0x04050607#32] ∧
    wordsFromBytes [0x00#8, 0x01#8, 0x02#8] = none := by decide

/-- Round 0 of the `abc` block (R79). -/
theorem test_round_zero :
    roundStep 0 0x61626380#32 (initWorking HashRegs.iv) =
      ⟨0x0116FC33#32, 0x67452301#32, 0x7BF36AE2#32, 0x98BADCFE#32, 0x10325476#32⟩ := by decide

/-- R84: a row that no command sequence reaches. -/
theorem test_compress_constructed :
    compress ⟨0#32, 0#32, 0#32, 0#32, 0#32⟩ ⟨List.replicate 64 0xFF#8, by simp⟩ =
      ⟨0xD21FA547#32, 0x30867DE7#32, 0x4C374871#32, 0xC1865E49#32, 0x1ECE2C16#32⟩ := by decide +kernel

/-- Section 2.6: the largest length without a block, and the largest of all. -/
theorem test_captured_length :
    finalBitLength (opened 63) = 0x1F8#64 ∧ finalBitLength ((opened 63).setBits 0xFFFFFFFFFFFFFE00#64) = 0xFFFFFFFFFFFFFFF8#64 := by decide

/-! ## Commands -/

/-- R95, P6 step 4: the bytes absorbed are forgotten. -/
theorem test_reset_forgets :
    goesOn (exec .reset (opened 2)) (fun t => decide (t = (State.reset.setResp (some .OK)))) = true := by decide

/-- Section 6.1: out of `DONE`. -/
theorem test_reset_from_done :
    goesOn (exec .reset finalised) (fun t => decide (t.phase = .OPEN ∧ t.bits = 0 ∧ digestValid t = 0#1)) = true := by
  decide

/-- R96's example, at the last free entry. -/
theorem test_update_stores :
    goesOn (exec (.update 0x80#8) (opened 62))
      (fun t => decide (t.len = 63 ∧ memReadByte t.pending 62 = some 0x80#8 ∧ t.bits = 0 ∧ t.h = HashRegs.iv)) = true := by
  decide

/-- P5 step 65: the byte that completes a block. -/
theorem test_update_completes_block :
    goesOn (exec (.update 0x61#8) (opened 63))
      (fun t => decide (t = (((State.reset.setHash chainedHash).setBits 512).setResp (some .OK)))) = true := by
  decide +kernel

/-- P2 step 4. -/
theorem test_updatef_abc :
    goesOn (exec (.updatef 0x63#8) (State.reset.setPending [0x61#8, 0x62#8]))
      (fun t => decide (digest t = 0xA9993E364706816ABA3E25717850C26C9CD0D89D#160 ∧ t.bits = 512 ∧ t.len = 0 ∧
        digestValid t = 1#1 ∧ t.resp = some .OK)) = true := by decide +kernel

/-- Section 6.1: `UPDATEF` after finalisation. -/
theorem test_updatef_in_done :
    goesOn (exec (.updatef 0x61#8) finalised) (fun t => decide (t = finalised.setResp (some .InvalidState))) = true := by
  decide

/-- P5 step 66: a whole extra block of padding, with the length 512 in it. -/
theorem test_final_after_a_block :
    goesOn (exec .final ((State.reset.setHash chainedHash).setBits 512))
      (fun t => decide (t.h = ⟨0x0098BA82#32, 0x4B5C1642#32, 0x7BD7A112#32, 0x2A5A442A#32, 0x25EC644D#32⟩ ∧
        t.bits = 1024 ∧ t.phase = .DONE)) = true := by decide +kernel

/-- Section 5.1, `n = 63`: two blocks. -/
theorem test_final_two_blocks :
    goesOn (exec .final (opened 63))
      (fun t => decide (digest t = 0x03F09F5B158A7A8CDAD920BDDC29B81C18A551F5#160 ∧ t.bits = 1024)) = true := by
  decide +kernel

/-- Section 6.1: an illegal word in `DONE` answers `InvalidInput`. -/
theorem test_illegal_word_in_done :
    goesOn (runWord 0x4FF#12 finalised) (fun t => decide (t = finalised.setResp (some .InvalidInput))) = true := by decide

/-! ## Steps -/

/-- A placed word is the next one that `step` runs. -/
theorem test_step_runs_placed_word :
    goesOn (step (State.reset.withFetchWord 16 0x261))
      (fun t => decide (t = (State.reset.setPending [0x61#8]).setResp (some .OK))) = true := by decide

/-- R134: `rst` during a command. -/
theorem test_step_cut_command :
    goesOn (step ((opened 5).setPort [.cutCommand 0x261#12])) (fun t => decide (t = State.reset)) = true := by decide

/-! ## Host side (section 6.4) -/

theorem test_hex :
    hexFromBytes [0x00#8, 0x07#8, 0xF0#8, 0xFF#8] = ['0', '0', '0', '7', 'f', '0', 'f', 'f'] ∧
    bytesFromHex ['a', 'b', 'c'] = some [0x0A#8, 0xBC#8] ∧ bytesFromHex ['7'] = some [0x07#8] ∧
    bytesFromHex ['A', '0'] = none := by decide

theorem test_text :
    bytesFromText [0x61, 0xE9, 0x20AC, 0x0100] = [0x61#8, 0xE9#8, 0xAC#8, 0x00#8] ∧
    binaryTextFromWords [0xA9993E36#32, 0x4706816A#32] =
      [0xA9#8, 0x99#8, 0x3E#8, 0x36#8, 0x47#8, 0x06#8, 0x81#8, 0x6A#8] := by decide

/-! ## Witnesses: the hypotheses of each obligation can be met -/

theorem witness_DecodeOfEncodeIsTheInstruction :
    Instr.wellFormed .reset = true ∧ Instr.wellFormed (.update 0xFF#8) = true ∧ Instr.wellFormed (.updatef 0x00#8) = true ∧
    Instr.wellFormed .final = true := by decide

theorem witness_EncodeOfDecodeIsTheWord :
    decode 0x100#12 = .ok .reset ∧ decode 0x2FF#12 = .ok (.update 0xFF#8) ∧ decode 0x300#12 = .ok (.updatef 0x00#8) ∧
    decode 0x400#12 = .ok .final := by decide

theorem witness_WordIsACommandExactlyWhenItMatchesItsRow :
    Instr.row (.update 0#8) ∈ opcodeRows ∧ (Instr.row (.update 0#8)).covers 0x2FF#12 = true := by decide

theorem witness_IllegalWordsAnswerInvalidInput :
    finalised.hasReset = true ∧ (opened 0).hasReset = true ∧ legalWord 0x0FF#12 = false ∧ legalWord 0x101#12 = false ∧
    legalWord 0x500#12 = false ∧ (∃ t, runWord 0x101#12 finalised = .next t) ∧ ∃ t, runWord 0x400#12 finalised = .next t :=
  ⟨rfl, rfl, by decide, by decide, by decide, ⟨_, rfl⟩, ⟨_, rfl⟩⟩

theorem witness_StepRunsTheDecodedCommand :
    ((opened 63).setPort [.command 0x261#12, .rst]).port = .command 0x261#12 :: [.rst] ∧
    decode 0x261#12 = .ok (.update 0x61#8) ∧ Instr.wellFormed (.update 0x61#8) = true := by decide

theorem witness_StepWithoutAMoveIsIdle : State.reset.port = [] := rfl

theorem witness_ResetInputActsAsTheResetCommand :
    ((opened 5).setPort [.rst]).port = .rst :: [] ∧
    (finalised.setPort [.cutCommand 0x261#12, .rst]).port = .cutCommand 0x261#12 :: [.rst] := by decide

theorem witness_ResetCommandCompletes : (opened 3).port = unreset.port ∧ unreset.hasReset = false := by decide

theorem witness_BeforeTheFirstResetOnlyResetHasAResult :
    unreset.hasReset = false ∧ (0x400#12 : CmdWord) ≠ 0x100#12 ∧ (0x101#12 : CmdWord) ≠ 0x100#12 := by decide

theorem witness_UpdateAbsorbsOneByte :
    (finalised.hasReset = true ∧ finalised.phase = .DONE) ∧ ((opened 0).Ready ∧ (opened 0).len < 63) ∧
    ((opened 62).Ready ∧ (opened 62).len < 63) ∧
    ∃ blk : Block, (opened 63).Ready ∧ blk.val = (opened 63).pending ++ [0x61#8] :=
  ⟨by decide, ⟨opened_ready 0 (by decide), by decide⟩, ⟨opened_ready 62 (by decide), by decide⟩,
    ⟨_, by decide⟩, opened_ready 63 (by decide), rfl⟩

theorem witness_UpdatefIsUpdateThenFinal :
    (finalised.hasReset = true ∧ finalised.phase = .DONE) ∧ (opened 54).Ready ∧ (opened 55).Ready ∧ (opened 63).Ready :=
  ⟨by decide, opened_ready 54 (by decide), opened_ready 55 (by decide), opened_ready 63 (by decide)⟩

theorem witness_FinalFinalises :
    (finalised.hasReset = true ∧ finalised.phase = .DONE) ∧ (opened 0).Ready ∧ (opened 63).Ready :=
  ⟨by decide, opened_ready 0 (by decide), opened_ready 63 (by decide)⟩

theorem witness_FinalizeFollowsTheSixSteps :
    Memory.wf (opened 0).pending ∧ Memory.wf (opened 55).pending ∧ Memory.wf (opened 56).pending ∧
    Memory.wf (opened 63).pending := by decide

/-- Section 5.2: the padded blocks for 55 and for 63 bytes `'a'`. -/
theorem witness_FinalProcessesOneOrTwoPaddedBlocks :
    (∃ blk : Block, (opened 55).Ready ∧ (opened 55).len ≤ 55 ∧ blk.val = (opened 55).pending ++ [0x80#8] ++
      List.replicate (55 - (opened 55).len) 0x00#8 ++ lengthField (finalBitLength (opened 55))) ∧
    (∃ blk blk' : Block, (opened 56).Ready ∧ 56 ≤ (opened 56).len ∧ blk.val ++ blk'.val = (opened 56).pending ++
      [0x80#8] ++ List.replicate (119 - (opened 56).len) 0x00#8 ++ lengthField (finalBitLength (opened 56))) :=
  ⟨⟨⟨List.replicate 55 0x61#8 ++ [0x80#8, 0#8, 0#8, 0#8, 0#8, 0#8, 0#8, 0x01#8, 0xB8#8], by decide⟩,
      opened_ready 55 (by decide), by decide, by decide⟩,
    ⟨⟨List.replicate 56 0x61#8 ++ 0x80#8 :: List.replicate 7 0#8, by decide⟩,
      ⟨List.replicate 62 0#8 ++ [0x01#8, 0xC0#8], by decide⟩, opened_ready 56 (by decide), by decide, by decide⟩⟩

theorem witness_BlocksCountedPerCommand : (opened 54).Ready ∧ (opened 55).Ready ∧ (opened 56).Ready ∧ (opened 63).Ready :=
  ⟨opened_ready 54 (by decide), opened_ready 55 (by decide), opened_ready 56 (by decide), opened_ready 63 (by decide)⟩

theorem witness_UpdateFrame :
    (∃ t, exec (.update 0x62#8) (opened 62) = .next t) ∧ (opened 62).phase = .OPEN ∧ (opened 62).len ≠ 63 ∧
    (∃ t, exec (.update 0x62#8) (opened 63) = .next t) ∧ (opened 63).phase = .OPEN ∧ (opened 63).len = 63 ∧
    (∃ t, exec (.update 0x62#8) finalised = .next t) ∧ finalised.phase = .DONE :=
  ⟨⟨_, whenOpen_of_ready (opened_ready 62 (by decide))⟩, rfl, by decide,
    ⟨_, whenOpen_of_ready (opened_ready 63 (by decide))⟩, rfl, by decide, ⟨_, rfl⟩, rfl⟩

theorem witness_FinishingFrame :
    (∃ t, exec .final (opened 56) = .next t) ∧ (∃ t, exec (.updatef 0x62#8) (opened 63) = .next t) ∧
    (opened 56).phase = .OPEN ∧ (opened 63).phase = .OPEN ∧
    (∃ t, exec .final finalised = .next t) ∧ (∃ t, exec (.updatef 0x62#8) finalised = .next t) ∧ finalised.phase = .DONE :=
  ⟨⟨_, whenOpen_of_ready (opened_ready 56 (by decide))⟩, ⟨_, whenOpen_of_ready (opened_ready 63 (by decide))⟩, rfl, rfl,
    ⟨_, rfl⟩, ⟨_, rfl⟩, rfl⟩

theorem witness_InvalidStateExactlyAfterFinalisation :
    finalised.hasReset = true ∧ Instr.final ≠ .reset ∧ finalised.phase = .DONE ∧
    (∃ t, exec .final finalised = .next t) ∧ (∃ t, exec .reset finalised = .next t) ∧
    (∃ t, exec (.update 0x62#8) (opened 0) = .next t) ∧
    (∃ e, decode 0x4FF#12 = .error e) ∧ ∃ t, runWord 0x4FF#12 finalised = .next t :=
  ⟨rfl, by decide, rfl, ⟨_, rfl⟩, ⟨_, rfl⟩, ⟨_, whenOpen_of_ready (opened_ready 0 (by decide))⟩, ⟨_, rfl⟩, ⟨_, rfl⟩⟩

theorem witness_ErrorsRecordNothing :
    (∃ t, runWord 0x401#12 (opened 1) = .next t ∧ t.resp ≠ some .OK) ∧
    (∃ t, runWord 0x400#12 finalised = .next t ∧ t.resp ≠ some .OK) :=
  ⟨⟨_, rfl, by decide⟩, ⟨_, rfl, by decide⟩⟩

theorem witness_PhaseMachineTable :
    (opened 63).Inv ∧ (opened 63).phase = .OPEN ∧ finalised.Inv ∧ finalised.phase = .DONE :=
  ⟨opened_inv 63 (by decide), rfl, finalised_inv, rfl⟩

theorem witness_OnlyAResetLeavesDone :
    finalised.hasReset = true ∧ finalised.phase = .DONE ∧
    (∃ t, step (finalised.setPort [.command 0x400#12]) = .next t) ∧
    (∃ t, step (finalised.setPort [.command 0x100#12]) = .next t) ∧ (∃ t, step (finalised.setPort [.rst]) = .next t) :=
  ⟨rfl, rfl, ⟨_, rfl⟩, ⟨_, rfl⟩, ⟨_, rfl⟩⟩

theorem witness_EveryCommandEndsWithOneResponse :
    (∃ t, runWord 0x100#12 unreset = .next t) ∧ (∃ t, runWord 0xFFF#12 (opened 1) = .next t) := ⟨⟨_, rfl⟩, ⟨_, rfl⟩⟩

theorem witness_LaterMovesDoNotInfluenceACommand :
    (∃ t, exec (.update 0x61#8) ((opened 5).setPort [.rst]) = .next t) ∧ (∃ t, exec .final finalised = .next t) :=
  ⟨⟨_, whenOpen_of_ready (k := absorbByte 0x61#8) (s := (opened 5).setPort [.rst]) ⟨rfl, rfl, by decide⟩⟩, ⟨_, rfl⟩⟩

theorem witness_StepKeepsTheInvariant :
    ((opened 63).setPort [.command 0x261#12]).Inv ∧ (∃ t, step ((opened 63).setPort [.command 0x261#12]) = .next t) ∧
    (finalised.setPort [.command 0x261#12]).Inv ∧ (∃ t, step (finalised.setPort [.command 0x261#12]) = .next t) :=
  ⟨⟨rfl, by decide, by decide, fun h => nomatch h⟩,
    ⟨_, whenOpen_of_ready (k := absorbByte 0x61#8) (s := (opened 63).setPort []) (opened_ready 63 (by decide))⟩,
    ⟨rfl, by decide, by decide, fun _ => rfl⟩, ⟨_, rfl⟩⟩

theorem witness_InvariantStatesNeverStop : State.reset.Inv ∧ finalised.Inv := ⟨opened_inv 0 (by decide), finalised_inv⟩

/-- Both stops of `CommandsStopExactlyHere` happen in some state. -/
theorem witness_CommandsStopExactlyHere :
    exec .final unreset = .refused .beforeFirstReset ∧ exec (.update 0x61#8) (opened 64) = .fault .noBufferEntry ∧
    (opened 64).len = 64 := ⟨rfl, rfl, by decide⟩

theorem witness_Rotl32RotatesLeft : (1 = 1 ∨ 1 = 5 ∨ 1 = 30) ∧ (30 = 1 ∨ 30 = 5 ∨ 30 = 30) := by decide

theorem witness_RoundFunctionBitByBit :
    31 < 32 ∧ (19 : Fin 80).val < 20 ∧ ¬ (20 : Fin 80).val < 20 ∧ 40 ≤ (59 : Fin 80).val ∧ (59 : Fin 80).val < 60 ∧
    ¬ (60 : Fin 80).val < 60 := by decide

theorem witness_WordsFromBytesGroupsFours :
    ([] : List Byte).length % 4 = 0 ∧ (List.replicate 64 0#8).length % 4 = 0 ∧ 15 < (List.replicate 64 0#8).length / 4 ∧
    (List.replicate 63 0#8).length % 4 ≠ 0 := by decide

theorem witness_ScheduleFollowsTheRecurrence :
    (∃ blk : Block, blk.val = List.replicate 64 0x00#8) ∧ (∃ blk : Block, blk.val = List.replicate 64 0xFF#8) ∧
    79 < 80 ∧ 16 ≤ 16 := ⟨⟨⟨_, by decide⟩, rfl⟩, ⟨⟨_, by decide⟩, rfl⟩, by decide, by decide⟩

theorem witness_LengthCaptureNeverCarries : (opened 63).Inv ∧ ((opened 63).setBits (0 - 512#64)).Inv :=
  ⟨opened_inv 63 (by decide), ⟨rfl, by decide, by decide, fun h => nomatch h⟩⟩

theorem witness_AbsorbingBytesEqualsDocZeroUpdate : Memory.wf (opened 0).pending ∧ Memory.wf (opened 63).pending := by
  decide

theorem witness_AbsorbingAMessageAfterReset :
    ([] : List Byte).length < Config.messageBound ∧ (List.replicate 129 0x61#8).length < Config.messageBound := by
  simp [Config.messageBound]

theorem witness_SerialFinaliserAgreesWithTheNormativeForm :
    Memory.wf (opened 55).pending ∧ Memory.wf (opened 56).pending ∧ Memory.wf (opened 63).pending := by decide

theorem witness_BlockBufferRealisesPending :
    (⟨Vector.replicate 64 0#8, 62#6⟩ : BlockBuffer).len ≠ 63#6 ∧ (⟨Vector.replicate 64 0#8, 63#6⟩ : BlockBuffer).len = 63#6 ∧
    bufferPending ⟨Vector.replicate 64 0#8, 0#6⟩ = bufferPending ⟨Vector.replicate 64 0xFF#8, 0#6⟩ :=
  ⟨by decide, by decide, rfl⟩

theorem witness_UpdatesAbsorbTheSequence : (opened 0).Ready ∧ (opened 63).Ready :=
  ⟨opened_ready 0 (by decide), opened_ready 63 (by decide)⟩

theorem witness_DigestIsThatOfThePaddedMessage : [0x61#8, 0x62#8, 0x63#8].length < Config.messageBound := by
  simp [Config.messageBound]

theorem witness_ResetForgetsEverythingBefore : (opened 63).Inv ∧ finalised.Inv :=
  ⟨opened_inv 63 (by decide), finalised_inv⟩

end Sys2Proof.Tests
end

namespace Sys2Proof.Machine

/-! ## Scope (spec/00_scope.md) -/

/-- Settles O8: a step takes the word off the host's moves and runs it, and running a word that decodes is `exec`. -/
theorem stepRunsTheDecodedCommand : Obligations.StepRunsTheDecodedCommand := by
  intro s w rest i hport hdecode _
  calc step s = runWord w (s.setPort rest) := step_of_command hport
    _ = exec i (s.setPort rest) := runWord_of_ok hdecode _
    _ = exec i { s with port := rest } := rfl

end Sys2Proof.Machine

namespace Sys2Proof.Machine

/-! ## The state between commands (spec/10_state.md)

The invariant of R19, what each command leaves unchanged, responses, the block buffer behind `PENDING`, and the digest
port. -/

/-! ### The invariant -/

/-- The invariant reads neither the response nor the host's moves. -/
theorem State.Inv.respond {s : State} (h : s.Inv) (r : Response) : (respond r s).Inv :=
  ⟨h.hasReset, h.memory, h.bits, h.done⟩

theorem State.Inv.idle {s : State} (h : s.Inv) : (idle s).Inv := ⟨h.hasReset, h.memory, h.bits, h.done⟩

theorem State.Inv.setPort {s : State} (h : s.Inv) (p : List HostMove) : (s.setPort p).Inv :=
  ⟨h.hasReset, h.memory, h.bits, h.done⟩

/-- Whatever the state before, a reset establishes the invariant. -/
theorem resetCore_inv (s : State) : (resetCore s).Inv := ⟨rfl, resetCore_keeps_wf s, rfl, fun _ => rfl⟩

theorem hardwareReset_inv (s : State) : (hardwareReset s).Inv := (resetCore_inv s).idle

/-- `512` divides `2^64`, so counting whole blocks keeps `BITS` a multiple of 512 even when it wraps (R17). -/
theorem add_blocks_mod_512 {x : DWord} (n : Nat) (h : x.toNat % 512 = 0) :
    (x + BitVec.ofNat 64 (512 * n)).toNat % 512 = 0 := by
  rw [BitVec.toNat_add, BitVec.toNat_ofNat]
  omega

/-- Absorbing a byte keeps the invariant in `OPEN`, the one phase in which the buffer may be left non-empty. -/
theorem State.Inv.absorbByte {s : State} (h : s.Inv) (hopen : s.phase = .OPEN) (b : Byte) : (absorbByte b s).Inv where
  hasReset := by rw [absorbByte_hasReset, h.hasReset]
  memory := absorbByte_keeps_wf b h.memory
  bits := by
    rcases absorbByte_cases b s h.memory with ⟨_, he⟩ | ⟨_, _, _, he⟩ <;> rw [he]
    · exact h.bits
    · exact add_blocks_mod_512 1 h.bits
  done hdone := by rw [absorbByte_phase, hopen] at hdone; cases hdone

/-- Finalising keeps the invariant: it empties the buffer and counts whole blocks. -/
theorem State.Inv.finalize {s : State} (h : s.Inv) : (finalize s).Inv where
  hasReset := by rw [finalize_hasReset, h.hasReset]
  memory := finalize_keeps_wf s
  bits := by rw [finalize_bits]; exact add_blocks_mod_512 _ h.bits
  done _ := finalize_pending s

/-- A guarded command keeps the invariant if its operation does so in `OPEN`, where alone it is run. -/
theorem whenOpen_keeps_inv {k : State → State} {s t : State} (h : s.Inv) (hk : s.phase = .OPEN → (k s).Inv)
    (ht : whenOpen k s = .next t) : t.Inv := by
  obtain ⟨_, ⟨_, rfl⟩ | ⟨hready, rfl⟩⟩ := whenOpen_next ht
  · exact h.respond _
  · exact (hk hready.phase).respond _

theorem exec_keeps_inv {i : Instr} {s t : State} (h : s.Inv) (ht : exec i s = .next t) : t.Inv := by
  cases i with
  | reset => rw [exec_reset] at ht; cases ht; exact (resetCore_inv s).respond _
  | update b => exact whenOpen_keeps_inv h (fun ho => h.absorbByte ho b) ht
  | updatef b => exact whenOpen_keeps_inv h (fun ho => (h.absorbByte ho b).finalize) ht
  | final => exact whenOpen_keeps_inv h (fun _ => h.finalize) ht

/-- All that answering an illegal word can give as a next state. -/
theorem answerIllegal_next {s t : State} (h : answerIllegal s = .next t) :
    s.hasReset = true ∧ t = respond .InvalidInput s := by
  unfold answerIllegal at h
  split at h
  · cases h
  · rename_i hr
    cases h
    exact ⟨by simpa using hr, rfl⟩

theorem runWord_keeps_inv {w : CmdWord} {s t : State} (h : s.Inv) (ht : runWord w s = .next t) : t.Inv := by
  cases hw : decode w with
  | ok i => exact exec_keeps_inv h (by rwa [runWord_of_ok hw] at ht)
  | error e =>
    rw [runWord_of_error hw] at ht
    obtain ⟨_, rfl⟩ := answerIllegal_next ht
    exact h.respond _

/-- All that a step can give as a next state, by the move that the host makes. -/
theorem step_next {s t : State} (h : step s = .next t) :
    (s.port = [] ∧ t = idle s) ∨ (∃ rest, t = hardwareReset (s.setPort rest)) ∨
    (∃ w rest, s.port = .command w :: rest ∧ runWord w (s.setPort rest) = .next t) := by
  unfold step at h
  split at h
  · rename_i hp; cases h; exact .inl ⟨hp, rfl⟩
  · cases h; exact .inr (.inl ⟨_, rfl⟩)
  · cases h; exact .inr (.inl ⟨_, rfl⟩)
  · rename_i hp; exact .inr (.inr ⟨_, _, hp, h⟩)

/-- Settles O28, by the host's move: CORE is idle, is reset, or runs a word. -/
theorem stepKeepsTheInvariant : Obligations.StepKeepsTheInvariant := by
  intro s t h ht
  obtain ⟨_, rfl⟩ | ⟨_, rfl⟩ | ⟨w, rest, _, hw⟩ := step_next ht
  · exact h.idle
  · exact hardwareReset_inv _
  · exact runWord_keeps_inv (h.setPort rest) hw

/-- Settles O29: the state after reset is the result of a hardware reset. -/
theorem resetMeetsTheInvariant : Obligations.ResetMeetsTheInvariant := hardwareReset_inv State.reset

/-! ### What the commands leave unchanged -/

@[simp] theorem memReadByte_nil (a : Nat) : memReadByte [] a = none := rfl

theorem memReadByte_append_same (m : Memory) (b : Byte) : memReadByte (m ++ [b]) m.length = some b :=
  List.getElem?_concat_length

theorem memReadByte_append_of_ne {m : Memory} {b : Byte} {a : Nat} (h : a ≠ m.length) :
    memReadByte (m ++ [b]) a = memReadByte m a := by
  rcases Nat.lt_or_gt_of_ne h with hlt | hgt
  · exact List.getElem?_append_left hlt
  · have hout : (m ++ [b]).length ≤ a := by simpa using hgt
    rw [memReadByte, memReadByte, List.getElem?_eq_none hout, List.getElem?_eq_none hgt.le]

theorem absorbByte_pending_of_full {b : Byte} {s : State} (h : s.len = 63) : (absorbByte b s).pending = [] := by
  have hblock : (s.pending ++ [b]).length = 64 := by rw [List.length_append, ← State.len_eq, h]; rfl
  rw [absorbByte_of_full (blk := ⟨_, hblock⟩) rfl, State.setPending_pending]

/-- Settles O20, by what `whenOpen` and then `absorbByte` can do. -/
theorem updateFrame : Obligations.UpdateFrame := by
  intro b s t ht
  obtain ⟨_, ⟨hdone, rfl⟩ | ⟨hready, rfl⟩⟩ := whenOpen_next ht
  · have hclosed : s.phase ≠ .OPEN := by rw [hdone]; decide
    exact ⟨rfl, rfl, rfl, fun ho => absurd ho hclosed, fun ho => absurd ho hclosed, fun _ => ⟨rfl, rfl, fun _ => rfl⟩⟩
  · have hlen : s.len < 64 := hready.memory
    refine ⟨absorbByte_phase b s, absorbByte_hasReset b s, absorbByte_port b s, fun _ hroom => ?_, fun _ hfull a => ?_,
      fun hd => nomatch hready.phase.symm.trans hd⟩
    · rw [absorbByte_of_room (by omega)]
      exact ⟨rfl, rfl, memReadByte_append_same _ b, fun a ha => memReadByte_append_of_ne ha⟩
    · rw [respond_pending, absorbByte_pending_of_full hfull, memReadByte_nil]

/-- The frame of a guarded command whose operation finalises: it ends in `DONE` with the buffer empty. -/
theorem whenOpen_finishing_frame {k : State → State} {s t : State} (hphase : (k s).phase = .DONE)
    (hpending : (k s).pending = []) (hreset : (k s).hasReset = s.hasReset) (hport : (k s).port = s.port)
    (ht : whenOpen k s = .next t) :
    t.hasReset = s.hasReset ∧ t.port = s.port ∧ t.phase = .DONE ∧
    (s.phase = .OPEN → ∀ a : Nat, memReadByte t.pending a = none) ∧
    (s.phase = .DONE → t.h = s.h ∧ t.bits = s.bits ∧ ∀ a : Nat, memReadByte t.pending a = memReadByte s.pending a) := by
  obtain ⟨_, ⟨hdone, rfl⟩ | ⟨hready, rfl⟩⟩ := whenOpen_next ht
  · have hclosed : s.phase ≠ .OPEN := by rw [hdone]; decide
    exact ⟨rfl, rfl, hdone, fun ho => absurd ho hclosed, fun _ => ⟨rfl, rfl, fun _ => rfl⟩⟩
  · exact ⟨hreset, hport, hphase, fun _ a => by rw [respond_pending, hpending, memReadByte_nil],
      fun hd => nomatch hready.phase.symm.trans hd⟩

/-- Settles O21: `FINAL` and `UPDATEF` are guarded commands whose operations finalise. -/
theorem finishingFrame : Obligations.FinishingFrame := by
  intro i s t hi ht
  obtain rfl | ⟨b, rfl⟩ := hi
  · exact whenOpen_finishing_frame (finalize_phase s) (finalize_pending s) (finalize_hasReset s) (finalize_port s) ht
  · exact whenOpen_finishing_frame (absorbAndFinalize_phase b s) (absorbAndFinalize_pending b s)
      (absorbAndFinalize_hasReset b s) (absorbAndFinalize_port b s) ht

/-! ### Responses -/

theorem whenOpen_next_responds {k : State → State} {s t : State} (h : whenOpen k s = .next t) :
    ∃ r, t.resp = some r := by
  obtain ⟨_, ⟨_, rfl⟩ | ⟨_, rfl⟩⟩ := whenOpen_next h
  · exact ⟨.InvalidState, rfl⟩
  · exact ⟨.OK, rfl⟩

theorem exec_next_responds {i : Instr} {s t : State} (h : exec i s = .next t) : ∃ r, t.resp = some r := by
  cases i with
  | reset => rw [exec_reset] at h; cases h; exact ⟨.OK, rfl⟩
  | update b => exact whenOpen_next_responds h
  | updatef b => exact whenOpen_next_responds h
  | final => exact whenOpen_next_responds h

theorem runWord_next_responds {w : CmdWord} {s t : State} (h : runWord w s = .next t) : ∃ r, t.resp = some r := by
  cases hw : decode w with
  | ok i => exact exec_next_responds (by rwa [runWord_of_ok hw] at h)
  | error e =>
    rw [runWord_of_error hw] at h
    obtain ⟨_, rfl⟩ := answerIllegal_next h
    exact ⟨.InvalidInput, rfl⟩

/-- A command does not read the response presented before. -/
theorem exec_setResp (i : Instr) (r : Option Response) (s : State) : exec i (s.setResp r) = exec i s := by
  cases i with
  | reset => rfl
  | update b => exact whenOpen_setResp (absorbByte_setResp b) r s
  | updatef b => exact whenOpen_setResp (absorbAndFinalize_setResp b) r s
  | final => exact whenOpen_setResp finalize_setResp r s

theorem runWord_setResp (w : CmdWord) (r : Option Response) (s : State) : runWord w (s.setResp r) = runWord w s := by
  cases hw : decode w with
  | ok i => rw [runWord_of_ok hw, runWord_of_ok hw, exec_setResp]
  | error e => rw [runWord_of_error hw, runWord_of_error hw]; rfl

theorem responseCode_ne_three (r : Response) : responseCode r ≠ 3#2 := by cases r <;> decide

/-- Settles O26: every way to a next state ends in `respond`, which overwrites the response unread. -/
theorem everyCommandEndsWithOneResponse : Obligations.EveryCommandEndsWithOneResponse := by
  refine ⟨fun w s t h => ?_, rfl, rfl, rfl, responseCode_ne_three, fun w s r => runWord_setResp w r s⟩
  obtain ⟨r, hr⟩ := runWord_next_responds h
  exact ⟨r, hr, by rw [respPort, hr]; rfl⟩

/-! ### The block buffer -/

/-- The entries up to and with index `LEN`, once a byte is stored there. -/
theorem bufferStore_take (b : Byte) (x : BlockBuffer) :
    (bufferStore b x).toList.take (x.len.toNat + 1) = bufferPending x ++ [b] := by
  have hlen : x.len.toNat < x.buf.toList.length := by rw [Vector.length_toList]; exact x.len.isLt
  rw [bufferStore, Vector.toList_set, List.take_succ_eq_append_getElem (by rwa [List.length_set]), List.getElem_set_self,
    List.take_set_of_le (Nat.le_refl _)]
  rfl

theorem bufferAbsorb_of_room {x : BlockBuffer} (b : Byte) (h : x.len ≠ 63#6) :
    bufferAbsorb b x = (⟨bufferStore b x, x.len + 1#6⟩, none) := if_neg h

theorem bufferAbsorb_of_full {x : BlockBuffer} (b : Byte) (h : x.len = 63#6) :
    bufferAbsorb b x = (⟨bufferStore b x, 0#6⟩, some (bufferBlock (bufferStore b x))) := if_pos h

/-- With room left, `LEN` goes up without a carry, so the stored byte is the last pending one. -/
theorem bufferPending_absorb_of_room {x : BlockBuffer} (b : Byte) (h : x.len ≠ 63#6) :
    bufferPending (bufferAbsorb b x).1 = bufferPending x ++ [b] := by
  have hlen : (x.len + 1#6).toNat = x.len.toNat + 1 := by bv_omega
  rw [bufferAbsorb_of_room b h, bufferPending, hlen, bufferStore_take]

theorem bufferPending_absorb_of_full {x : BlockBuffer} (b : Byte) (h : x.len = 63#6) :
    bufferPending (bufferAbsorb b x).1 = [] := by
  rw [bufferAbsorb_of_full b h]; rfl

/-- With `LEN` 63 the block is the pending bytes and the stored one. -/
theorem bufferBlock_store_of_full {x : BlockBuffer} (b : Byte) (h : x.len = 63#6) :
    (bufferBlock (bufferStore b x)).val = bufferPending x ++ [b] := by
  rw [← bufferStore_take, h]
  exact (List.take_of_length_le (bufferBlock (bufferStore b x)).property.le).symm

/-- Settles O49, by whether `LEN` is 63; what follows depends on the buffer through `PENDING` alone. -/
theorem blockBufferRealisesPending : Obligations.BlockBufferRealisesPending := by
  intro b x
  refine ⟨fun hroom => ?_, fun hfull => ?_, fun y hpending hlen => ?_⟩
  · exact ⟨by rw [bufferAbsorb_of_room b hroom], bufferPending_absorb_of_room b hroom,
      by rw [bufferAbsorb_of_room b hroom]⟩
  · exact ⟨bufferBlock (bufferStore b x), by rw [bufferAbsorb_of_full b hfull], bufferBlock_store_of_full b hfull,
      bufferPending_absorb_of_full b hfull, by rw [bufferAbsorb_of_full b hfull]⟩
  · by_cases hx : x.len = 63#6
    · have hy : y.len = 63#6 := hlen.trans hx
      have hblock : bufferBlock (bufferStore b y) = bufferBlock (bufferStore b x) :=
        Subtype.ext (by rw [bufferBlock_store_of_full b hy, bufferBlock_store_of_full b hx, hpending])
      exact ⟨by rw [bufferPending_absorb_of_full b hy, bufferPending_absorb_of_full b hx],
        by rw [bufferAbsorb_of_full b hy, bufferAbsorb_of_full b hx, hblock]⟩
    · have hy : y.len ≠ 63#6 := hlen ▸ hx
      exact ⟨by rw [bufferPending_absorb_of_room b hy, bufferPending_absorb_of_room b hx, hpending],
        by rw [bufferAbsorb_of_room b hy, bufferAbsorb_of_room b hx]⟩

/-! ### The digest port -/

theorem extractLsb'_append_word {n : Nat} (x : BitVec n) (y : Word) (start len : Nat) :
    (x ++ y).extractLsb' (start + 32) len = x.extractLsb' start len := by
  rw [BitVec.extractLsb'_append_eq_of_le (Nat.le_add_left 32 start), Nat.add_sub_cancel]

/-- A slice of the concatenation that lies within register `i` is that slice of the register: the registers below it are
skipped, and those above it are not reached. -/
theorem hashBits_extractLsb' (h : HashRegs) (i : Fin 5) {start len : Nat} (hfit : start + len ≤ 32) :
    (hashBits h).extractLsb' (start + 32 * (4 - i.val)) len = (h.get i).extractLsb' start len := by
  have skip {n : Nat} (x : BitVec n) (y : Word) (k : Nat) := extractLsb'_append_word x y k len
  match i with
  | 4 => exact BitVec.extractLsb'_append_eq_of_add_le hfit
  | 3 => exact (skip _ _ start).trans (BitVec.extractLsb'_append_eq_of_add_le hfit)
  | 2 => exact (skip _ _ (start + 32)).trans <| (skip _ _ start).trans (BitVec.extractLsb'_append_eq_of_add_le hfit)
  | 1 =>
    exact (skip _ _ (start + 64)).trans <| (skip _ _ (start + 32)).trans <| (skip _ _ start).trans
      (BitVec.extractLsb'_append_eq_of_add_le hfit)
  | 0 =>
    exact (skip _ _ (start + 96)).trans <| (skip _ _ (start + 64)).trans <| (skip _ _ (start + 32)).trans
      (skip _ _ start)

theorem digest_extractLsb'_register (s : State) (i : Fin 5) :
    (digest s).extractLsb' (32 * (4 - i.val)) 32 = s.h.get i := by
  have hslice := hashBits_extractLsb' s.h i (Nat.le_refl (0 + 32))
  rwa [Nat.zero_add, BitVec.extractLsb'_eq_self] at hslice

theorem bytesFromWord_eq (w : Word) :
    bytesFromWord w = (List.finRange 4).map (fun j => w.extractLsb' (24 - 8 * j.val) 8) := rfl

theorem hashBytes_eq (h : HashRegs) : hashBytes h = (List.finRange 5).flatMap (fun i => bytesFromWord (h.get i)) := rfl

theorem digestByte_eq (s : State) (i : Fin 5) (j : Fin 4) :
    digestByte s ⟨4 * i.val + j.val, by omega⟩ = (s.h.get i).extractLsb' (24 - 8 * j.val) 8 := by
  rw [← hashBits_extractLsb' s.h i (by omega), digestByte, digest]
  congr 1
  dsimp only
  omega

theorem finRange_twenty_eq : List.finRange 20 =
    (List.finRange 5).flatMap (fun i => (List.finRange 4).map (fun j => ⟨4 * i.val + j.val, by omega⟩)) := by
  decide

theorem digestByte_list (s : State) : (List.finRange 20).map (digestByte s) = hashBytes s.h := by
  simp only [finRange_twenty_eq, hashBytes_eq, bytesFromWord_eq, List.map_flatMap, List.map_map, Function.comp_def,
    digestByte_eq]

theorem digestValid_eq_one_iff (s : State) : digestValid s = 1#1 ↔ s.phase = .DONE := by
  unfold digestValid
  cases s.phase <;> decide

/-- Settles O50: the port is a concatenation of registers, sliced by words and by bytes. -/
theorem digestPortShowsTheRegisters : Obligations.DigestPortShowsTheRegisters := by
  intro s
  refine ⟨digest_extractLsb'_register s 0, digest_extractLsb'_register s 1, digest_extractLsb'_register s 2,
    digest_extractLsb'_register s 3, digest_extractLsb'_register s 4, digestByte_list s, rfl,
    digestValid_eq_one_iff s, ?_⟩
  simp only [messageDigest, digestValid_eq_one_iff]

end Sys2Proof.Machine

namespace Sys2Proof.Machine

/-! ## Memory (spec/20_memory.md) -/

/-- `exec_setPort` at the moves that the state already holds: the next state is its own copy with those moves. -/
theorem exec_next_port {i : Instr} {s t : State} (h : exec i s = .next t) : t.port = s.port := by
  have hcopy : exec i s = .next (t.setPort s.port) := exec_setPort s.port h
  have heq : t = t.setPort s.port := Host.Outcome.next.inj (h.symm.trans hcopy)
  calc t.port = (t.setPort s.port).port := congrArg State.port heq
    _ = s.port := State.setPort_port s.port t

/-- Settles O27: every command's operation carries the host's moves along unread (R43). -/
theorem laterMovesDoNotInfluenceACommand : Obligations.LaterMovesDoNotInfluenceACommand :=
  fun _ _ _ p h => ⟨exec_next_port h, exec_setPort p h⟩

end Sys2Proof.Machine

namespace Sys2Proof.Machine

/-! ## Encoding (spec/30_encoding.md) -/

/-! ### Fields of a word (R49) -/

@[simp] theorem opField_cmdWord (op : BitVec 4) (arg : Byte) : opField (cmdWord op arg) = op := by
  rw [opField, cmdWord, BitVec.extractLsb'_append_eq_of_le le_rfl, Nat.sub_self, BitVec.extractLsb'_eq_self]

@[simp] theorem argField_cmdWord (op : BitVec 4) (arg : Byte) : argField (cmdWord op arg) = arg := by
  rw [argField, cmdWord, BitVec.extractLsb'_append_eq_of_add_le le_rfl, BitVec.extractLsb'_eq_self]

/-- The two fields are all of a word. -/
theorem cmdWord_opField_argField (w : CmdWord) : cmdWord (opField w) (argField w) = w :=
  (BitVec.extractLsb'_append_extractLsb'_eq_extractLsb' rfl).trans BitVec.extractLsb'_eq_self

theorem cmdWord_eq_iff {op : BitVec 4} {arg : Byte} {w : CmdWord} :
    cmdWord op arg = w ↔ opField w = op ∧ argField w = arg := by
  constructor
  · rintro rfl
    exact ⟨opField_cmdWord op arg, argField_cmdWord op arg⟩
  · rintro ⟨rfl, rfl⟩
    exact cmdWord_opField_argField w

theorem opField_and (w v : CmdWord) : opField (w &&& v) = opField w &&& opField v := BitVec.extractLsb'_and

theorem argField_and (w v : CmdWord) : argField (w &&& v) = argField w &&& argField v := BitVec.extractLsb'_and

/-- A word as a number: 256 times the opcode, plus the operand. -/
theorem toNat_cmdWord (op : BitVec 4) (arg : Byte) : (cmdWord op arg).toNat = 256 * op.toNat + arg.toNat := by
  rw [cmdWord, BitVec.toNat_append, ← Nat.shiftLeft_add_eq_or_of_lt arg.isLt, Nat.shiftLeft_eq, Nat.mul_comm]

theorem toNat_eq_fields (w : CmdWord) : w.toNat = 256 * (opField w).toNat + (argField w).toNat := by
  rw [← toNat_cmdWord, cmdWord_opField_argField]

/-! ### The decoder and the encoder (R53 to R55) -/

theorem withoutOperand_eq_ok_iff {op : BitVec 4} {arg : Byte} {i j : Instr} :
    withoutOperand op arg i = .ok j ↔ arg = 0#8 ∧ i = j := by
  unfold withoutOperand
  split <;> simp [*]

theorem decode_cmdWord_update (b : Byte) : decode (cmdWord 0x2#4 b) = .ok (.update b) := by simp [decode]

theorem decode_cmdWord_updatef (b : Byte) : decode (cmdWord 0x3#4 b) = .ok (.updatef b) := by simp [decode]

theorem decode_encode (i : Instr) : decode (encode i) = .ok i := by
  cases i with
  | reset => rfl
  | update b => exact decode_cmdWord_update b
  | updatef b => exact decode_cmdWord_updatef b
  | final => rfl

/-- All that the decoder can read: the word of the instruction it answers. -/
theorem encode_of_decode_eq_ok {w : CmdWord} {i : Instr} (h : decode w = .ok i) : encode i = w := by
  unfold decode at h
  split_ifs at h with hreset hupdate hupdatef hfinal
  · obtain ⟨harg, rfl⟩ := withoutOperand_eq_ok_iff.mp h
    exact cmdWord_eq_iff.mpr ⟨hreset, harg⟩
  · cases h
    exact cmdWord_eq_iff.mpr ⟨hupdate, rfl⟩
  · cases h
    exact cmdWord_eq_iff.mpr ⟨hupdatef, rfl⟩
  · obtain ⟨harg, rfl⟩ := withoutOperand_eq_ok_iff.mp h
    exact cmdWord_eq_iff.mpr ⟨hfinal, harg⟩

/-- The decoder is the inverse of the encoder, word by word. -/
theorem decode_eq_ok_iff {w : CmdWord} {i : Instr} : decode w = .ok i ↔ encode i = w :=
  ⟨encode_of_decode_eq_ok, fun h => h ▸ decode_encode i⟩

/-- Settles O1, by the four encodings; the operand field gives the byte back. -/
theorem decodeOfEncodeIsTheInstruction : Obligations.DecodeOfEncodeIsTheInstruction :=
  fun i _ => decode_encode i

/-! ### The opcode map (R52) -/

/-- The mask `0xFFF` compares both fields: the commands without an operand. -/
theorem and_fullMask_eq_iff {w : CmdWord} {op : BitVec 4} {arg : Byte} :
    w &&& 0xFFF#12 = cmdWord op arg ↔ opField w = op ∧ argField w = arg := by
  rw [show (0xFFF#12 : CmdWord) = BitVec.allOnes 12 from rfl, BitVec.and_allOnes, eq_comm, cmdWord_eq_iff]

/-- The mask `0xF00` compares the opcode: the commands with an operand. -/
theorem and_opMask_eq_iff {w : CmdWord} {op : BitVec 4} : w &&& 0xF00#12 = cmdWord op 0x00#8 ↔ opField w = op := by
  have hop : opField 0xF00#12 = BitVec.allOnes 4 := by decide
  have harg : argField 0xF00#12 = 0#8 := by decide
  rw [eq_comm, cmdWord_eq_iff, opField_and, argField_and, hop, harg, BitVec.and_allOnes, BitVec.and_zero]
  exact and_iff_left rfl

theorem covers_iff {r : OpcodeRow} {w : CmdWord} : r.covers w = true ↔ w &&& r.mask = r.pattern := beq_iff_eq

theorem legalWord_iff_matches (w : CmdWord) : legalWord w = true ↔
    w &&& 0xFFF#12 = 0x100#12 ∨ w &&& 0xF00#12 = 0x200#12 ∨ w &&& 0xF00#12 = 0x300#12 ∨ w &&& 0xFFF#12 = 0x400#12 := by
  simp [legalWord, opcodeRows, covers_iff, Instr.row]

/-- The legal words by their fields, as the table of R52 lists them. -/
theorem legalWord_iff_fields (w : CmdWord) : legalWord w = true ↔
    (opField w = 0x1#4 ∧ argField w = 0x00#8) ∨ opField w = 0x2#4 ∨ opField w = 0x3#4 ∨
    (opField w = 0x4#4 ∧ argField w = 0x00#8) := by
  rw [legalWord_iff_matches]
  have hfull (op : BitVec 4) := and_fullMask_eq_iff (w := w) (op := op) (arg := 0x00#8)
  have hop (op : BitVec 4) := and_opMask_eq_iff (w := w) (op := op)
  exact or_congr (hfull 0x1#4) (or_congr (hop 0x2#4) (or_congr (hop 0x3#4) (hfull 0x4#4)))

theorem legalWord_encode (i : Instr) : legalWord (encode i) = true := by
  cases i with
  | reset => exact Laws.EncodeLegal.reset.1
  | update b => exact (Laws.EncodeLegal.update b).1
  | updatef b => exact (Laws.EncodeLegal.updatef b).1
  | final => exact Laws.EncodeLegal.final.1

/-- The match and mask pairs and the decoder agree on which words are commands. -/
theorem legalWord_iff_decode (w : CmdWord) : legalWord w = true ↔ ∃ i, decode w = .ok i := by
  simp only [decode_eq_ok_iff]
  constructor
  · rw [legalWord_iff_fields]
    rintro (h | hop | hop | h)
    · exact ⟨.reset, cmdWord_eq_iff.mpr h⟩
    · exact ⟨.update (argField w), cmdWord_eq_iff.mpr ⟨hop, rfl⟩⟩
    · exact ⟨.updatef (argField w), cmdWord_eq_iff.mpr ⟨hop, rfl⟩⟩
    · exact ⟨.final, cmdWord_eq_iff.mpr h⟩
  · rintro ⟨i, rfl⟩
    exact legalWord_encode i

/-- Every row's mask has the whole opcode in it, so a row's words have the opcode of its pattern. -/
theorem opField_of_covers {r : OpcodeRow} {w : CmdWord} (hr : r ∈ opcodeRows) (h : r.covers w = true) :
    opField w = opField r.pattern := by
  have hmask : ∀ r ∈ opcodeRows, opField r.mask = BitVec.allOnes 4 := by decide
  rw [← covers_iff.mp h, opField_and, hmask r hr, BitVec.and_allOnes]

/-- The rows are disjoint, for no two have the same opcode. -/
theorem row_eq_of_covers {r r' : OpcodeRow} {w : CmdWord} (hr : r ∈ opcodeRows) (hr' : r' ∈ opcodeRows)
    (h : r.covers w = true) (h' : r'.covers w = true) : r = r' := by
  have hinj : ∀ r ∈ opcodeRows, ∀ r' ∈ opcodeRows, opField r.pattern = opField r'.pattern → r = r' := by decide
  exact hinj r hr r' hr' ((opField_of_covers hr h).symm.trans (opField_of_covers hr' h'))

/-! ### Counting the legal words (R52, R56) -/

/-- As numbers, the legal words are `0x100` and an interval: all of the two update commands, then `FINAL`. -/
theorem legalWord_iff_toNat (w : CmdWord) :
    legalWord w = true ↔ w.toNat = 0x100 ∨ (0x200 ≤ w.toNat ∧ w.toNat < 0x401) := by
  have hw := toNat_eq_fields w
  have harg := (argField w).isLt
  simp only [legalWord_iff_fields, BitVec.toNat_eq, BitVec.toNat_ofNat]
  omega

theorem legalWord_ofNat_iff {n : Nat} (h : n < 4096) :
    legalWord (BitVec.ofNat 12 n) = true ↔ n ∈ insert 0x100 (Finset.Ico 0x200 0x401) := by
  rw [legalWord_iff_toNat, BitVec.toNat_ofNat, Nat.mod_eq_of_lt h, Finset.mem_insert, Finset.mem_Ico]

theorem legalWords_length : ((List.range 4096).filter (fun n => legalWord (BitVec.ofNat 12 n))).length = 514 := by
  have hset : ((List.range 4096).filter (fun n => legalWord (BitVec.ofNat 12 n))).toFinset =
      insert 0x100 (Finset.Ico 0x200 0x401) := by
    ext n
    rw [List.mem_toFinset, List.mem_filter, List.mem_range]
    constructor
    · rintro ⟨hn, hlegal⟩
      exact (legalWord_ofNat_iff hn).mp hlegal
    · intro hmem
      have hn : n < 4096 := by rw [Finset.mem_insert, Finset.mem_Ico] at hmem; omega
      exact ⟨hn, (legalWord_ofNat_iff hn).mpr hmem⟩
  rw [← List.toFinset_card_of_nodup (List.nodup_range.filter _), hset, Finset.card_insert_of_notMem (by simp),
    Nat.card_Ico]

theorem length_filter_not {α : Type} {l : List α} {f : α → Bool} {n m : Nat} (hl : l.length = n + m)
    (hf : (l.filter f).length = n) : (l.filter (fun x => !f x)).length = m := by
  have hsplit := l.length_eq_length_filter_add f
  omega

theorem illegalWords_length : ((List.range 4096).filter (fun n => !legalWord (BitVec.ofNat 12 n))).length = 3582 :=
  length_filter_not List.length_range legalWords_length

/-- Settles O4: a word decodes exactly when it is an encoding, and each match and mask pair says that of its command. -/
theorem wordIsACommandExactlyWhenItMatchesItsRow : Obligations.WordIsACommandExactlyWhenItMatchesItsRow := by
  refine ⟨rfl, fun w => ⟨?_, fun b => ?_, fun b => ?_, ?_, legalWord_iff_decode w,
    fun _ hr _ hr' => row_eq_of_covers hr hr'⟩, legalWords_length⟩
  · exact decode_eq_ok_iff.trans (cmdWord_eq_iff.trans and_fullMask_eq_iff.symm)
  · exact decode_eq_ok_iff.trans (cmdWord_eq_iff.trans (and_congr and_opMask_eq_iff.symm eq_comm))
  · exact decode_eq_ok_iff.trans (cmdWord_eq_iff.trans (and_congr and_opMask_eq_iff.symm eq_comm))
  · exact decode_eq_ok_iff.trans (cmdWord_eq_iff.trans and_fullMask_eq_iff.symm)

/-! ### Illegal words (R56, R117) -/

/-- The illegal words by their fields, in the words of R56. -/
def IllegalWord (w : CmdWord) : Prop :=
  (opField w = 0x0#4 ∨ 0x5#4 ≤ opField w) ∨ ((opField w = 0x1#4 ∨ opField w = 0x4#4) ∧ argField w ≠ 0x00#8)

theorem illegalWord_iff_legalWord_eq_false (w : CmdWord) : IllegalWord w ↔ legalWord w = false := by
  rw [← Bool.not_eq_true, legalWord_iff_fields, IllegalWord]
  generalize opField w = op, argField w = arg
  by_cases harg : arg = 0x00#8
  · simp only [harg, ne_eq, not_true, and_false, and_true, or_false]
    revert op
    decide
  · simp only [harg, ne_eq, not_false_eq_true, and_false, and_true, or_false, false_or]
    revert op
    decide

theorem exists_error_iff_not_exists_ok {ε α : Type} (x : Except ε α) : (∃ e, x = .error e) ↔ ¬ ∃ a, x = .ok a := by
  cases x <;> simp

theorem illegalWord_iff_decode (w : CmdWord) : IllegalWord w ↔ ∃ e, decode w = .error e := by
  rw [illegalWord_iff_legalWord_eq_false, exists_error_iff_not_exists_ok, ← legalWord_iff_decode, Bool.not_eq_true]

theorem answerIllegal_of_hasReset {s : State} (h : s.hasReset = true) :
    answerIllegal s = .next (respond .InvalidInput s) := by
  simp [answerIllegal, h, raise]

/-- An illegal word answers `InvalidInput` after a reset, whatever the phase, and changes nothing else. -/
theorem runWord_of_illegal {w : CmdWord} {s : State} (hw : IllegalWord w) (hs : s.hasReset = true) :
    runWord w s = .next (respond .InvalidInput s) := by
  obtain ⟨e, he⟩ := (illegalWord_iff_decode w).mp hw
  rw [runWord_of_error he, answerIllegal_of_hasReset hs]

theorem whenOpen_next_resp_ne_invalidInput {k : State → State} {s t : State} (h : whenOpen k s = .next t) :
    t.resp ≠ some .InvalidInput := by
  obtain ⟨_, ⟨_, rfl⟩ | ⟨_, rfl⟩⟩ := whenOpen_next h <;> simp

/-- No command answers `InvalidInput`. -/
theorem exec_next_resp_ne_invalidInput {i : Instr} {s t : State} (h : exec i s = .next t) :
    t.resp ≠ some .InvalidInput := by
  cases i with
  | reset => rw [exec_reset] at h; cases h; simp
  | update b => exact whenOpen_next_resp_ne_invalidInput h
  | updatef b => exact whenOpen_next_resp_ne_invalidInput h
  | final => exact whenOpen_next_resp_ne_invalidInput h

/-- Only an illegal word answers `InvalidInput`. -/
theorem illegalWord_of_resp {w : CmdWord} {s t : State} (h : runWord w s = .next t)
    (hresp : t.resp = some .InvalidInput) : IllegalWord w := by
  rw [illegalWord_iff_decode, exists_error_iff_not_exists_ok]
  rintro ⟨i, hi⟩
  exact exec_next_resp_ne_invalidInput (runWord_of_ok hi s ▸ h) hresp

/-- Settles O5: the illegal words are those the decoder refuses, and only their answer is `InvalidInput`. -/
theorem illegalWordsAnswerInvalidInput : Obligations.IllegalWordsAnswerInvalidInput := by
  refine ⟨fun w => ⟨illegalWord_iff_legalWord_eq_false w, illegalWord_iff_decode w,
    fun s hs hw => runWord_of_illegal hw hs, fun s t hs h => ⟨illegalWord_of_resp h, fun hw => ?_⟩⟩,
    illegalWords_length, by decide, by decide⟩
  have ht : t = respond .InvalidInput s := Host.Outcome.next.inj (h.symm.trans (runWord_of_illegal hw hs))
  rw [ht, respond_resp]

/-! ### Assembler text (R59, R61) -/

/-- The parser reads either case, so the upper-case digit too. -/
theorem hexValue_toLower_upperHexDigit (n : BitVec 4) : hexValue (upperHexDigit n).toLower = some n := by
  revert n
  decide

theorem parseByte_byteText (b : Byte) : parseByte (byteText b) = some b := by
  have hdigits : b.extractLsb' 4 4 ++ b.extractLsb' 0 4 = b :=
    (BitVec.extractLsb'_append_extractLsb'_eq_extractLsb' rfl).trans BitVec.extractLsb'_eq_self
  simp only [byteText, parseByte, hexValue_toLower_upperHexDigit, hdigits]

theorem parseCommand_instrText (i : Instr) : parseCommand (instrText i) = some i := by
  cases i with
  | reset => rfl
  | update b => exact congrArg (Option.map Instr.update) (parseByte_byteText b)
  | updatef b => exact congrArg (Option.map Instr.updatef) (parseByte_byteText b)
  | final => rfl

theorem disassemble_of_ok {w : CmdWord} {i : Instr} (h : decode w = .ok i) : disassemble w = instrText i := by
  simp [disassemble, h]

/-- Settles O7: the operand's two digits read back as the byte, and the word decodes to its instruction. -/
theorem assemblerTextReadsBack : Obligations.AssemblerTextReadsBack :=
  fun i => ⟨parseCommand_instrText i, disassemble_of_ok (decode_encode i)⟩

/-! ### Listed words -/

/-- The operand is added to the opcode's word. -/
theorem cmdWord_eq_add (op : BitVec 4) (b : Byte) : cmdWord op b = cmdWord op 0x00#8 + b.setWidth 12 := by
  have hop := op.isLt
  have hb := b.isLt
  apply BitVec.eq_of_toNat_eq
  simp only [BitVec.toNat_add, BitVec.toNat_setWidth, toNat_cmdWord, BitVec.toNat_ofNat]
  omega

/-- Settles O3: the encodings are words of the format, with the operand in the low byte. -/
theorem encodingsAreTheListedWords : Obligations.EncodingsAreTheListedWords :=
  ⟨rfl, rfl, fun b => ⟨cmdWord_eq_add 0x2#4 b, cmdWord_eq_add 0x3#4 b⟩, rfl, rfl, rfl⟩

/-- Settles O6: the four commands by the round trip, and the two kinds of refusal by running the decoder. -/
theorem handWrittenWordsDecode : Obligations.HandWrittenWordsDecode :=
  ⟨decode_encode .reset, decode_encode (.update 0x61#8), decode_encode (.updatef 0x63#8), decode_encode .final,
    by decide, by decide, by decide⟩

/-! ### No word presented (R48) -/

theorem step_of_no_move {s : State} (h : s.port = []) : step s = .next (idle s) := by simp [step, h]

/-- Settles O9: with no move the step is `idle`, which presents no response. -/
theorem stepWithoutAMoveIsIdle : Obligations.StepWithoutAMoveIsIdle := fun _ hport => step_of_no_move hport

end Sys2Proof.Machine

namespace Sys2Proof.Machine

/-! ## Primitives (spec/40_primitives.md) -/

/-- A concatenation as a number. -/
theorem toNat_append_eq_add {m n : Nat} (x : BitVec m) (y : BitVec n) :
    (x ++ y).toNat = x.toNat * 2 ^ n + y.toNat := by
  rw [BitVec.toNat_append, ← Nat.shiftLeft_add_eq_or_of_lt y.isLt, Nat.shiftLeft_eq]

/-! ### Rotation (R64) -/

/-- The two shifted copies are disjoint: below bit `n` stand the top `n` bits, from bit `n` on the other `k`. -/
theorem rotl32_eq_append (x : Word) {k n : Nat} (h : k + n = 32) :
    rotl32 x n = (x.extractLsb' 0 k ++ x.extractLsb' k n).cast h := by
  have hk : 32 - n = k := by omega
  ext i hi
  rw [rotl32, hk, BitVec.getElem_cast, BitVec.getElem_append]
  by_cases hlow : i < n
  · simp [hlow]
  · have hhigh : x.getLsbD (k + i) = false := BitVec.getLsbD_of_ge x _ (by omega)
    simp [hlow, hhigh, BitVec.getLsbD_eq_getElem (show i - n < 32 by omega)]

theorem rotl32_toNat (x : Word) {n : Nat} (h : n ≤ 32) :
    (rotl32 x n).toNat = x.toNat * 2 ^ n % 2 ^ 32 + x.toNat / 2 ^ (32 - n) := by
  have hpow : 2 ^ 32 = 2 ^ (32 - n) * 2 ^ n := by rw [← Nat.pow_add, Nat.sub_add_cancel h]
  have htop : x.toNat / 2 ^ (32 - n) < 2 ^ n := Nat.div_lt_of_lt_mul (hpow ▸ x.isLt)
  rw [rotl32_eq_append x (Nat.sub_add_cancel h), BitVec.toNat_cast, toNat_append_eq_add, hpow, Nat.mul_mod_mul_right,
    BitVec.extractLsb'_toNat, BitVec.extractLsb'_toNat, Nat.shiftRight_zero, Nat.shiftRight_eq_div_pow,
    Nat.mod_eq_of_lt htop]

theorem rotl32_thirty (x : Word) : rotl32 x 30 = x.rotateRight 2 :=
  (BitVec.or_comm _ _).trans (BitVec.rotateRight_def (x := x) (r := 2)).symm

/-- Settles O33, by the concatenation, whose value as a number is the formula. -/
theorem rotl32RotatesLeft : Obligations.Rotl32RotatesLeft := by
  intro x
  refine ⟨fun n hn => rotl32_toNat x (by omega), ?_, ?_, ?_, rotl32_thirty x⟩
  · exact rotl32_eq_append x (k := 31) rfl
  · exact rotl32_eq_append x (k := 27) rfl
  · exact rotl32_eq_append x (k := 2) rfl

/-! ### The round function and the round constants (R69, R70) -/

theorem roundF_of_lt_20 {t : Fin 80} (b c d : Word) (h : t.val < 20) : roundF t b c d = (b &&& c) ||| (not32 b &&& d) :=
  if_pos h

theorem roundF_of_40_to_59 {t : Fin 80} (b c d : Word) (h : 40 ≤ t.val ∧ t.val < 60) :
    roundF t b c d = (b &&& c) ||| (b &&& d) ||| (c &&& d) := by
  rw [roundF, if_neg (by omega), if_neg (by omega), if_pos h.2]

theorem roundF_otherwise {t : Fin 80} (b c d : Word) (hlo : ¬ t.val < 20) (hmid : ¬ (40 ≤ t.val ∧ t.val < 60)) :
    roundF t b c d = b ^^^ c ^^^ d := by
  unfold roundF
  split_ifs
  · rfl
  · omega
  · rfl

theorem getLsbD_not32 (x : Word) {i : Nat} (h : i < 32) : (not32 x).getLsbD i = !x.getLsbD i := by
  simp [not32, h]

theorem majority_bit (b c d : Bool) : (b && c || b && d || c && d) = decide (2 ≤ b.toNat + c.toNat + d.toNat) := by
  revert b c d; decide

theorem parity_bit (b c d : Bool) : (b ^^ c ^^ d) = decide ((b.toNat + c.toNat + d.toNat) % 2 = 1) := by
  revert b c d; decide

/-- Settles O35, by the ranges of `t`; in each, `F` acts on every bit alone. -/
theorem roundFunctionBitByBit : Obligations.RoundFunctionBitByBit := by
  intro t b c d i hi
  split_ifs with hlo hb hmid
  · simp [roundF_of_lt_20 b c d hlo, getLsbD_not32 b hi, hb]
  · simp [roundF_of_lt_20 b c d hlo, getLsbD_not32 b hi, hb]
  · simp only [roundF_of_40_to_59 b c d hmid, BitVec.getLsbD_or, BitVec.getLsbD_and, majority_bit]
  · simp only [roundF_otherwise b c d hlo hmid, BitVec.getLsbD_xor, parity_bit]

/-- Settles O36: each of the four ranges of `t` is one value of `t div 20`. -/
theorem roundConstantsByTable : Obligations.RoundConstantsByTable := by
  intro t
  have ht := t.isLt
  unfold roundK
  split_ifs
  · rw [show t.val / 20 = 0 by omega]; rfl
  · rw [show t.val / 20 = 1 by omega]; rfl
  · rw [show t.val / 20 = 2 by omega]; rfl
  · rw [show t.val / 20 = 3 by omega]; rfl

/-! ### Addition and inversion (R62, R66) -/

theorem add32_toNat (x y : Word) : (add32 x y).toNat = (x.toNat + y.toNat) % 2 ^ 32 := BitVec.toNat_add x y

theorem add32_zero (x : Word) : add32 x 0#32 = x := BitVec.add_zero x

/-- Settles O32: `add32` is the addition of 32-bit vectors. -/
theorem add32DiscardsTheCarry : Obligations.Add32DiscardsTheCarry :=
  ⟨fun x y => ⟨add32_toNat x y, add32_zero x⟩, by decide, by decide, by decide⟩

theorem not32_toNat (x : Word) : (not32 x).toNat = 0xFFFFFFFF - x.toNat := BitVec.toNat_not

/-- Settles O34: `not32` is the complement of a 32-bit vector. -/
theorem not32InvertsEveryBit : Obligations.Not32InvertsEveryBit :=
  ⟨fun x => ⟨not32_toNat x, fun _ => getLsbD_not32 x⟩, by decide, by decide⟩

/-! ### Bytes and words (R71 to R74) -/

theorem wordFromBytes_toNat (b0 b1 b2 b3 : Byte) : (wordFromBytes b0 b1 b2 b3).toNat =
    b0.toNat * 2 ^ 24 + b1.toNat * 2 ^ 16 + b2.toNat * 2 ^ 8 + b3.toNat := by
  simp only [wordFromBytes, toNat_append_eq_add]
  omega

theorem bytesFromWord_toNat (w : Word) : (bytesFromWord w).map BitVec.toNat =
    [w.toNat / 2 ^ 24, w.toNat / 2 ^ 16 % 256, w.toNat / 2 ^ 8 % 256, w.toNat % 256] := by
  have htop : w.toNat / 2 ^ 24 < 2 ^ 8 := Nat.div_lt_of_lt_mul w.isLt
  simp only [bytesFromWord, List.map_cons, List.map_nil, BitVec.extractLsb'_toNat, Nat.shiftRight_eq_div_pow,
    Nat.mod_eq_of_lt htop, Nat.pow_zero, Nat.div_one]

/-- Settles O37, by the values of both conversions as numbers. -/
theorem wordsAreBigEndian : Obligations.WordsAreBigEndian :=
  ⟨wordFromBytes_toNat, bytesFromWord_toNat, by decide, by decide, by decide, by decide, by decide⟩

/-- The four bytes are the digits, to the base 256, of the word they make. -/
theorem bytesFromWord_wordFromBytes (b0 b1 b2 b3 : Byte) :
    bytesFromWord (wordFromBytes b0 b1 b2 b3) = [b0, b1, b2, b3] := by
  have hinj : Function.Injective (BitVec.toNat (w := 8)) := fun _ _ => BitVec.eq_of_toNat_eq
  apply List.map_injective_iff.mpr hinj
  have h0 := b0.isLt
  have h1 := b1.isLt
  have h2 := b2.isLt
  have h3 := b3.isLt
  simp only [bytesFromWord_toNat, wordFromBytes_toNat, List.map_cons, List.map_nil, List.cons.injEq, and_true]
  omega

/-- A word is the sum of its four digits to the base 256. -/
theorem wordFromBytes_slices (w : Word) :
    wordFromBytes (w.extractLsb' 24 8) (w.extractLsb' 16 8) (w.extractLsb' 8 8) (w.extractLsb' 0 8) = w := by
  have hw := w.isLt
  apply BitVec.eq_of_toNat_eq
  simp only [wordFromBytes_toNat, BitVec.extractLsb'_toNat, Nat.shiftRight_eq_div_pow]
  omega

theorem wordsFromBytes_of_mod {p : List Byte} (h : p.length % 4 = 0) : wordsFromBytes p = some (groupWords p) :=
  if_pos h

theorem wordsFromBytes_of_mod_ne {p : List Byte} (h : p.length % 4 ≠ 0) : wordsFromBytes p = none := if_neg h

theorem wordsFromBytes_bytesFromWord (w : Word) : wordsFromBytes (bytesFromWord w) = some [w] := by
  have hgroup : groupWords (bytesFromWord w) = [w] := congrArg (fun v => [v]) (wordFromBytes_slices w)
  rw [wordsFromBytes_of_mod (by rw [bytesFromWord_length]), hgroup]

/-- Settles O38, in base 256: splitting gives back the digits, and joining them the word. -/
theorem byteWordConversionsAreInverse : Obligations.ByteWordConversionsAreInverse :=
  ⟨bytesFromWord_wordFromBytes, wordsFromBytes_bytesFromWord⟩

/-- Settles O39, by what grouping by fours gives on a multiple of 4. -/
theorem wordsFromBytesGroupsFours : Obligations.WordsFromBytesGroupsFours := by
  intro p
  refine ⟨fun h => ⟨groupWords p, wordsFromBytes_of_mod h, ?_, groupWords_getElem? p⟩, wordsFromBytes_of_mod_ne⟩
  exact groupWords_length _ p (Nat.mul_div_cancel' (Nat.dvd_of_mod_eq_zero h)).symm

/-! ### The captured length (R67) -/

/-- `BITS` is a multiple of 512 and `8 * LEN` is less, so their sum stays below `2^64`. -/
theorem State.Inv.finalBitLength_toNat {s : State} (h : s.Inv) :
    (finalBitLength s).toNat = s.bits.toNat + 8 * s.len := by
  have hbits := h.bits
  have hlen : s.len < 64 := h.memory
  have hlt := s.bits.isLt
  rw [finalBitLength, BitVec.toNat_add, BitVec.toNat_mul, BitVec.toNat_ofNat, show (8 : DWord).toNat = 8 from rfl]
  omega

/-- The captured length is made of its two terms without a carry between them. -/
theorem State.Inv.finalBitLength_eq_append {s : State} (h : s.Inv) :
    finalBitLength s = s.bits.extractLsb' 9 55 ++ BitVec.ofNat 9 (8 * s.len) := by
  have hbits := h.bits
  have hlen : s.len < 64 := h.memory
  have hlt := s.bits.isLt
  apply BitVec.eq_of_toNat_eq
  rw [h.finalBitLength_toNat, toNat_append_eq_add, BitVec.extractLsb'_toNat, Nat.shiftRight_eq_div_pow,
    BitVec.toNat_ofNat]
  omega

theorem ofNat_mul_eight_low (n : Nat) : (BitVec.ofNat 9 (8 * n)).extractLsb' 0 3 = 0#3 := by
  apply BitVec.eq_of_toNat_eq
  rw [BitVec.extractLsb'_toNat, BitVec.toNat_ofNat, Nat.shiftRight_zero, BitVec.toNat_ofNat]
  omega

/-- Settles O44, by the two parts of the captured length; counting a block is an addition in 64 bits. -/
theorem lengthCaptureNeverCarries : Obligations.LengthCaptureNeverCarries := by
  refine ⟨fun s h => ⟨?_, ?_, ?_, h.finalBitLength_toNat⟩, fun blk s => ?_⟩
  · rw [h.finalBitLength_eq_append, BitVec.extractLsb'_append_eq_right]
  · rw [h.finalBitLength_eq_append, BitVec.extractLsb'_append_eq_left]
  · rw [h.finalBitLength_eq_append, BitVec.extractLsb'_append_eq_of_add_le (by decide), ofNat_mul_eight_low]
  · rw [consumeBlock_bits]; exact BitVec.toNat_add s.bits 512

end Sys2Proof.Machine

namespace Sys2Proof.Machine

/-! ## Compression (spec/41_compression.md) -/

/-! ### The message schedule (R76, R77) -/

theorem wordsFromBytes_block (blk : Block) : wordsFromBytes blk.val = some ((schedule blk).toList.take 16) := by
  rw [wordsFromBytes_of_mod (by rw [blk.property]), schedule, expand_take]

/-- The rule for `t = n + 16`, read off the expansion that computes word `t`. -/
theorem schedule_getElem_add (blk : Block) (n : Nat) (h : n + 16 < 80) :
    (schedule blk)[n + 16] =
      rotl32 ((schedule blk)[n + 13] ^^^ (schedule blk)[n + 8] ^^^ (schedule blk)[n + 2] ^^^ (schedule blk)[n]) 1 := by
  have earlier (k : Nat) (hk : k < 16 + n) : (schedule blk)[k] = (expand blk n)[k] :=
    schedule_getElem blk n k (by omega) hk
  calc (schedule blk)[n + 16]
      = (expand blk (n + 1))[n + 16] := schedule_getElem blk (n + 1) (n + 16) (by omega) (by omega)
    _ = scheduleWord n (expand blk n) := by simp only [Nat.add_comm n 16, expand_last]
    _ = _ := by
      rw [earlier (n + 13) (by omega), earlier (n + 8) (by omega), earlier (n + 2) (by omega), earlier n (by omega),
        scheduleWord]

theorem schedule_recurrence (blk : Block) (t : Nat) (ht : t < 80) (h16 : 16 ≤ t) :
    (schedule blk)[t] =
      rotl32 ((schedule blk)[t - 3] ^^^ (schedule blk)[t - 8] ^^^ (schedule blk)[t - 14] ^^^ (schedule blk)[t - 16]) 1 := by
  obtain ⟨n, rfl⟩ := Nat.exists_eq_add_of_le' h16
  exact schedule_getElem_add blk n ht

theorem schedule_of_lt_16 (blk : Block) (t : Nat) (h : t < 16) : (schedule blk)[t] = memReadWord blk ⟨t, h⟩ := by
  rw [schedule_getElem blk 0 t (by omega) h]
  simp [expand, loadBlock]

theorem memReadWord_of_replicate {blk : Block} {b : Byte} (h : blk.val = List.replicate 64 b) (i : Fin 16) :
    memReadWord blk i = wordFromBytes b b b b := by
  simp only [memReadWord, h, List.getElem_replicate]

/-- In the words of an all-zero block every new word is a rotated zero. -/
theorem schedule_of_zero_block {blk : Block} (h : blk.val = List.replicate 64 0x00#8) (t : Nat) (ht : t < 80) :
    (schedule blk)[t] = 0#32 := by
  induction t using Nat.strong_induction_on with
  | _ t ih =>
    by_cases h16 : t < 16
    · rw [schedule_of_lt_16 blk t h16, memReadWord_of_replicate h]
      rfl
    · rw [schedule_recurrence blk t ht (by omega), ih (t - 3) (by omega), ih (t - 8) (by omega),
        ih (t - 14) (by omega), ih (t - 16) (by omega)]
      rfl

/-- The corner case is one block, so its schedule is run. -/
theorem schedule_of_ones_block {blk : Block} (h : blk.val = List.replicate 64 0xFF#8) :
    (schedule blk)[16] = 0#32 ∧ (schedule blk)[79] = 0xFFFFFFFF#32 := by
  obtain rfl : blk = ⟨List.replicate 64 0xFF#8, List.length_replicate⟩ := Subtype.ext h
  decide +kernel

/-- Settles O40: the recurrence from the expansion; zero words by induction along it, the all-`0xFF` block by running it. -/
theorem scheduleFollowsTheRecurrence : Obligations.ScheduleFollowsTheRecurrence :=
  fun blk => ⟨wordsFromBytes_block blk, schedule_recurrence blk, fun h t => schedule_of_zero_block h t t.isLt,
    schedule_of_ones_block⟩

/-! ### The rounds (R79, R80) -/

theorem roundTemp_toNat (t : Fin 80) (w : Word) (v : Working) :
    (roundTemp t w v).toNat = ((rotl32 v.a 5).toNat + v.e.toNat + w.toNat + (roundK t).toNat +
      (roundF t v.b v.c v.d).toNat) % 2 ^ 32 := by
  simp only [roundTemp, BitVec.toNat_add, Nat.mod_add_mod]

/-- Settles O41: `TEMP` as a number; the other four variables are projections of the round. -/
theorem roundAssignsAllFiveVariables : Obligations.RoundAssignsAllFiveVariables :=
  ⟨fun t w v => ⟨roundTemp_toNat t w v, rfl, rfl, rfl, rfl⟩, by decide⟩

/-- Settles O42: the rounds are a fold over `0, ..., 79`, so they run through its intermediate values in that order. -/
theorem eightyRoundsInOrder : Obligations.EightyRoundsInOrder := by
  intro w v
  obtain ⟨after, hzero, hsucc, hrounds⟩ := foldl_trace (fun v t => roundStep t w[t] v) (List.finRange 80) v
  rw [List.length_finRange] at hrounds
  refine ⟨after, hzero, fun t => ?_, hrounds⟩
  have hround := hsucc t.val (by rw [List.length_finRange]; exact t.isLt)
  rwa [List.getElem_finRange] at hround

/-! ### The accumulation (R78, R81) -/

/-- Settles O43: `Compress` starts the rounds on the registers' values and accumulates, one `add32` for each register. -/
theorem compressAddsTheRoundsToACopy : Obligations.CompressAddsTheRoundsToACopy := by
  intro h blk
  refine ⟨rounds (schedule blk) (initWorking h), rfl, ?_⟩
  rw [compress_eq]
  generalize rounds (schedule blk) (initWorking h) = v
  exact ⟨add32_toNat h.h0 v.a, add32_toNat h.h1 v.b, add32_toNat h.h2 v.c, add32_toNat h.h3 v.d, add32_toNat h.h4 v.e⟩

end Sys2Proof.Machine

namespace Sys2Proof.Machine

/-! ## Commands (spec/42_commands.md) -/

/-! ### `RESET` (R95) -/

/-- Of the state before, a reset keeps the host's moves and nothing else. -/
theorem respond_resetCore_congr (r : Response) {s s' : State} (h : s'.port = s.port) :
    respond r (resetCore s') = respond r (resetCore s) := by
  rw [resetCore_eq, resetCore_eq, h]
  rfl

theorem hashBits_iv : hashBits HashRegs.iv = 0x67452301EFCDAB8998BADCFE10325476C3D2E1F0#160 := by decide

/-- Settles O12: `RESET` writes every field but the host's moves. A second one starts from the same moves, so it gives the
same state. -/
theorem resetCommandCompletes : Obligations.ResetCommandCompletes := by
  intro s
  have hcongr (s' : State) (h : s'.port = s.port) : exec .reset s' = .next (respond .OK (resetCore s)) := by
    rw [exec_reset, respond_resetCore_congr .OK h]
  exact ⟨respond .OK (resetCore s), exec_reset s, rfl, rfl, rfl, rfl, rfl, rfl, rfl, rfl, rfl, rfl, rfl, hashBits_iv, rfl,
    hcongr _ rfl, hcongr⟩

/-! ### `UPDATE`, `UPDATEF` and `FINAL` (R96 to R98) -/

/-- Settles O14, by the cases of `absorbByte`. -/
theorem updateAbsorbsOneByte : Obligations.UpdateAbsorbsOneByte := by
  refine ⟨fun b s hreset hdone => whenOpen_of_done hreset hdone, fun b s hready hroom => ?_, fun b s blk hready hblk => ?_⟩
  · rw [exec_update, whenOpen_of_ready hready, absorbByte_of_room hroom]
    rfl
  · rw [exec_update, whenOpen_of_ready hready, absorbByte_of_full hblk]
    rfl

theorem finalize_respond (r : Response) (s : State) : finalize (respond r s) = (finalize s).setResp (some r) :=
  finalize_setResp (some r) s

/-- Settles O15: `UPDATE b` leaves the state ready for `FINAL`, which does not read the response in between. -/
theorem updatefIsUpdateThenFinal : Obligations.UpdatefIsUpdateThenFinal := by
  refine ⟨fun b s hreset hdone => whenOpen_of_done hreset hdone, fun b s hready => ?_⟩
  refine ⟨respond .OK (absorbByte b s), respond .OK (absorbAndFinalize b s), whenOpen_of_ready hready, ?_,
    whenOpen_of_ready hready, rfl, rfl, rfl⟩
  rw [exec_final, whenOpen_of_ready (hready.absorb b), finalize_respond]
  rfl

/-- Settles O16: `FINAL` is `Finalize` under the check of the phase. -/
theorem finalFinalises : Obligations.FinalFinalises :=
  ⟨fun _ hreset hdone => whenOpen_of_done hreset hdone,
    fun s hready => ⟨respond .OK (finalize s), whenOpen_of_ready hready, rfl, rfl, rfl⟩⟩

/-! ### `Finalize` in its normative form (R88, R90, R92) -/

theorem finalize_h (s : State) :
    (finalize s).h = chainBlocks s.h (paddedMessage s) ((paddedMessage s).length / 64) := by
  rw [finalize, State.setPhase_h, drain_h le_rfl]

/-- `Finalize`, field by field. -/
theorem finalize_eq (s : State) :
    finalize s =
      { s with h := chainBlocks s.h (paddedMessage s) ((paddedMessage s).length / 64),
               bits := s.bits + BitVec.ofNat 64 (512 * ((paddedMessage s).length / 64)), pending := [], phase := .DONE } :=
  State.ext_fields (finalize_h s) (finalize_pending s) (finalize_bits s) (finalize_phase s) (finalize_resp s)
    (finalize_hasReset s) (finalize_port s)

/-- The captured length as a number modulo `2^64` (R67). -/
theorem finalBitLength_eq_ofNat (s : State) : finalBitLength s = BitVec.ofNat 64 (s.bits.toNat + 8 * s.len) := by
  rw [BitVec.ofNat_add, BitVec.ofNat_mul, BitVec.ofNat_toNat, BitVec.setWidth_eq]
  rfl

/-- Settles O17: the zero fill of the closed form is the least one, and the length in it is captured from `s`. -/
theorem finalizeFollowsTheSixSteps : Obligations.FinalizeFollowsTheSixSteps := by
  intro s hwf
  have hlen : s.len < 64 := hwf
  refine ⟨(119 - s.len % 64) % 64, fun k hk => by omega, by omega, ?_⟩
  dsimp only
  rw [← finalBitLength_eq_ofNat, List.append_assoc _ (bytesFromWord _), ← lengthField, ← paddedMessage_eq]
  refine ⟨?_, finalize_eq s⟩
  rw [paddedMessage_length s hlen]
  split
  · exact .inl rfl
  · exact .inr rfl

/-- A chain over a sequence that starts with a block compresses that block first. -/
theorem chainBlocks_block_append (h : HashRegs) (blk : Block) (q : List Byte) (n : Nat) (hn : 64 * n ≤ q.length) :
    chainBlocks h (blk.val ++ q) (n + 1) = chainBlocks (compress h blk) q n := by
  have hlen : (blk.val ++ q).length = 64 + q.length := by rw [List.length_append, blk.property]
  have hfirst : firstBlock (blk.val ++ q) (by omega) = blk := Subtype.ext (List.take_left' blk.property)
  rw [chainBlocks_succ_front h _ n (by omega), hfirst, List.drop_left' blk.property]

theorem chainBlocks_block (h : HashRegs) (blk : Block) : chainBlocks h blk.val 1 = compress h blk := by
  have happend := chainBlocks_block_append h blk [] 0 (Nat.zero_le _)
  rwa [List.append_nil] at happend

theorem chainBlocks_two_blocks (h : HashRegs) (blk blk' : Block) :
    chainBlocks h (blk.val ++ blk'.val) 2 = compress (compress h blk) blk' := by
  rw [chainBlocks_block_append h blk blk'.val 1 blk'.property.ge, chainBlocks_block]

theorem finalize_of_one_block {s : State} {blk : Block} (h : paddedMessage s = blk.val) :
    finalize s = { s with h := compress s.h blk, bits := s.bits + 512, pending := [], phase := .DONE } := by
  rw [finalize_eq, h, blk.property, chainBlocks_block]
  rfl

theorem finalize_of_two_blocks {s : State} {blk blk' : Block} (h : paddedMessage s = blk.val ++ blk'.val) :
    finalize s =
      { s with h := compress (compress s.h blk) blk', bits := s.bits + 1024, pending := [], phase := .DONE } := by
  rw [finalize_eq, h, List.length_append, blk.property, blk'.property, chainBlocks_two_blocks]
  rfl

/-- Settles O18: on either side of `LEN = 55` the closed form of the padded message is what the statement has. -/
theorem finalProcessesOneOrTwoPaddedBlocks : Obligations.FinalProcessesOneOrTwoPaddedBlocks := by
  constructor
  · intro s blk hready hlen hblk
    have hpadded : paddedMessage s = blk.val := by
      rw [paddedMessage_eq, hblk, show (119 - s.len % 64) % 64 = 55 - s.len by omega]
    rw [exec_final, whenOpen_of_ready hready, finalize_of_one_block hpadded]
    rfl
  · intro s blk blk' hready hlen hblocks
    have hlt : s.len < 64 := hready.memory
    have hpadded : paddedMessage s = blk.val ++ blk'.val := by
      rw [paddedMessage_eq, hblocks, show (119 - s.len % 64) % 64 = 119 - s.len by omega]
    rw [exec_final, whenOpen_of_ready hready, finalize_of_two_blocks hpadded]
    rfl

/-! ### The byte-serial form (R89, R91) -/

/-- The bytes that `Finalize` appends to `PENDING`. -/
def paddingBytes (s : State) : List Byte :=
  0x80#8 :: (List.replicate ((119 - s.len % 64) % 64) 0x00#8 ++ lengthField (finalBitLength s))

theorem paddedMessage_eq_append_paddingBytes (s : State) : paddedMessage s = s.pending ++ paddingBytes s := by
  rw [paddedMessage_eq, List.append_assoc, List.append_assoc]
  rfl

/-- `Finalize` absorbs its padding byte by byte. -/
theorem finalize_eq_absorbBytes {s : State} (h : Memory.wf s.pending) :
    finalize s = (absorbBytes (paddingBytes s) s).setPhase .DONE := by
  rw [absorbBytes_eq_drain _ s h, ← paddedMessage_eq_append_paddingBytes]
  rfl

/-- The run of the state machine: two transitions up to `S_ZERO`, the zero fill and the test that ends it, the length bytes,
and `S_DONE` until the bound. -/
theorem finalizeSerial_eq (l : DWord) {s : State} (h : Memory.wf s.pending) :
    finalizeSerial l s = ⟨.S_DONE, finalBitLength s, finalize s⟩ := by
  have hlen := absorbByte_len 0x80#8 h
  generalize hz : (119 - s.len % 64) % 64 = z
  have hzlt : z < 64 := by omega
  have hfill : ((absorbByte 0x80#8 s).len + z) % 64 = 56 := by omega
  have hbound : finTickBound = 2 + ((z + 1) + (8 + (63 - z + 1))) := by rw [finTickBound]; omega
  rw [finalizeSerial, hbound, finTicks_add, finTicks_capture, finTicks_add,
    finTicks_zero z _ _ (absorbByte_keeps_wf _ h) hfill hzlt, finTicks_add, finTicks_length, finTicks_done,
    ← absorbBytes_append, ← absorbBytes_cons, finalize_eq_absorbBytes h, paddingBytes, hz]

/-- Settles O48, by the run of the state machine. -/
theorem serialFinaliserAgreesWithTheNormativeForm : Obligations.SerialFinaliserAgreesWithTheNormativeForm := by
  intro l s h
  rw [finalizeSerial_eq l h]
  exact ⟨rfl, rfl⟩

/-! ### Absorbing a sequence (R87, R93) -/

theorem absorbBytes_eq_updateSequence (m : List Byte) {s : State} (h : Memory.wf s.pending) :
    absorbBytes m s = updateSequence m s := absorbBytes_eq_drain m s h

/-- Settles O45: byte by byte it is plain that a sequence may be split. -/
theorem absorbingBytesEqualsDocZeroUpdate : Obligations.AbsorbingBytesEqualsDocZeroUpdate := by
  refine ⟨fun m s h => absorbBytes_eq_updateSequence m h, fun m m' s h => ?_⟩
  calc updateSequence (m ++ m') s = absorbBytes (m ++ m') s := (absorbBytes_eq_updateSequence _ h).symm
    _ = absorbBytes m' (absorbBytes m s) := absorbBytes_append m m' s
    _ = updateSequence m' (absorbBytes m s) := absorbBytes_eq_updateSequence m' (absorbBytes_keeps_wf m h)
    _ = updateSequence m' (updateSequence m s) := by rw [absorbBytes_eq_updateSequence m h]

/-- After a reset the buffer is empty, so the loop runs on the message alone. -/
theorem absorbBytes_reset (m : List Byte) : absorbBytes m State.reset = drain (m.length / 64) m State.reset :=
  absorbBytes_eq_drain m State.reset reset_memory_wf

theorem absorbBytes_reset_bits (m : List Byte) :
    (absorbBytes m State.reset).bits = BitVec.ofNat 64 (512 * (m.length / 64)) := by
  rw [absorbBytes_reset, drain_bits (by omega)]
  exact BitVec.zero_add _

theorem absorbBytes_reset_pending (m : List Byte) :
    (absorbBytes m State.reset).pending = m.drop (64 * (m.length / 64)) := by
  rw [absorbBytes_reset, drain_pending (by omega)]

theorem absorbBytes_reset_len (m : List Byte) : (absorbBytes m State.reset).len = m.length % 64 := by
  rw [State.len_eq, absorbBytes_reset_pending, List.length_drop]
  omega

theorem absorbBytes_reset_h (m : List Byte) :
    (absorbBytes m State.reset).h = chainBlocks HashRegs.iv m (m.length / 64) := by
  rw [absorbBytes_reset, drain_h le_rfl]
  rfl

/-- Settles O46, field by field; below the bound `BITS` does not wrap. -/
theorem absorbingAMessageAfterReset : Obligations.AbsorbingAMessageAfterReset := by
  intro m hbound
  have hlt : m.length < 2 ^ 61 := hbound
  refine ⟨?_, absorbBytes_reset_len m, absorbBytes_reset_pending m, absorbBytes_reset_h m, absorbBytes_phase m _⟩
  rw [absorbBytes_reset_bits, BitVec.toNat_ofNat, Nat.mod_eq_of_lt (by omega)]

/-- Settles O47: the complete blocks are counted in `BITS`, the other bytes in `LEN`. -/
theorem capturedLengthIsTheMessageLength : Obligations.CapturedLengthIsTheMessageLength := by
  intro m
  have hsplit : 8 * m.length = 512 * (m.length / 64) + 8 * (m.length % 64) := by omega
  rw [finalBitLength_eq_ofNat, absorbBytes_reset_bits, absorbBytes_reset_len, hsplit, BitVec.ofNat_add,
    BitVec.ofNat_toNat, BitVec.setWidth_eq, ← BitVec.ofNat_add]

/-! ### The phase machine (R99 to R101) -/

/-- The rows of R99 for a command under the check of the phase, `p` being the phase that its operation leaves. -/
theorem whenOpen_row {k : State → State} {s : State} {p : Phase} (h : s.Inv)
    (hk : s.phase = .OPEN → (k s).phase = p) :
    ∃ t, whenOpen k s = .next t ∧ (s.phase = .OPEN → t.resp = some .OK ∧ t.phase = p) ∧
      (s.phase = .DONE → t.resp = some .InvalidState ∧ t.phase = .DONE) := by
  obtain hdone | hready := h.done_or_ready
  · have hclosed : s.phase ≠ .OPEN := by rw [hdone]; decide
    exact ⟨_, whenOpen_of_done h.hasReset hdone, fun hopen => absurd hopen hclosed, fun _ => ⟨rfl, hdone⟩⟩
  · exact ⟨_, whenOpen_of_ready hready, fun hopen => ⟨rfl, hk hopen⟩,
      fun hdone => nomatch hready.phase.symm.trans hdone⟩

/-- Settles O24, by what the word decodes to. -/
theorem phaseMachineTable : Obligations.PhaseMachineTable := by
  intro w s h
  cases hw : decode w with
  | error e => exact ⟨_, (runWord_of_error hw s).trans (answerIllegal_of_hasReset h.hasReset), rfl, rfl⟩
  | ok i =>
    rw [runWord_of_ok hw]
    cases i with
    | reset => exact ⟨_, exec_reset s, rfl, rfl⟩
    | update b => exact whenOpen_row h (fun hopen => (absorbByte_phase b s).trans hopen)
    | updatef b => exact whenOpen_row h (fun _ => absorbAndFinalize_phase b s)
    | final => exact whenOpen_row h (fun _ => finalize_phase s)

theorem step_of_rst {s : State} {rest : List HostMove} (h : s.port = .rst :: rest) :
    step s = .next (hardwareReset (s.setPort rest)) := by
  simp [step, h]

theorem step_of_cutCommand {s : State} {w : CmdWord} {rest : List HostMove} (h : s.port = .cutCommand w :: rest) :
    step s = .next (hardwareReset (s.setPort rest)) := by
  simp [step, h]

/-- Settles O30, by the host's move: a word has its row in the table of R99, and no other move can stop. -/
theorem invariantStatesNeverStop : Obligations.InvariantStatesNeverStop := by
  intro s h
  have hnext : ∃ t, step s = .next t := by
    match hport : s.port with
    | [] => exact ⟨_, step_of_no_move hport⟩
    | .rst :: _ => exact ⟨_, step_of_rst hport⟩
    | .cutCommand _ :: _ => exact ⟨_, step_of_cutCommand hport⟩
    | .command w :: rest =>
      obtain ⟨t, ht, _⟩ := phaseMachineTable w (s.setPort rest) (h.setPort rest)
      exact ⟨t, (step_of_command hport).trans ht⟩
  obtain ⟨t, ht⟩ := hnext
  exact ⟨t, ht, stepKeepsTheInvariant s t h ht⟩

theorem whenOpen_next_of_done {k : State → State} {s t : State} (hdone : s.phase = .DONE) (h : whenOpen k s = .next t) :
    t = respond .InvalidState s := by
  obtain ⟨_, ⟨_, ht⟩ | ⟨hready, _⟩⟩ := whenOpen_next h
  · exact ht
  · exact nomatch hready.phase.symm.trans hdone

/-- In `DONE` a command other than `RESET` changes the response alone. -/
theorem exec_next_of_done {i : Instr} {s t : State} (hdone : s.phase = .DONE) (h : exec i s = .next t) :
    (i = .reset ∧ t = respond .OK (resetCore s)) ∨ t = respond .InvalidState s := by
  cases i with
  | reset => rw [exec_reset] at h; cases h; exact .inl ⟨rfl, rfl⟩
  | update b => exact .inr (whenOpen_next_of_done hdone h)
  | updatef b => exact .inr (whenOpen_next_of_done hdone h)
  | final => exact .inr (whenOpen_next_of_done hdone h)

/-- In `DONE` a word other than that of `RESET` changes the response alone. -/
theorem runWord_next_of_done {w : CmdWord} {s t : State} (hdone : s.phase = .DONE) (h : runWord w s = .next t) :
    (w = 0x100#12 ∧ t = respond .OK (resetCore s)) ∨ ∃ r, t = respond r s := by
  cases hw : decode w with
  | error e =>
    rw [runWord_of_error hw] at h
    exact .inr ⟨_, (answerIllegal_next h).2⟩
  | ok i =>
    rw [runWord_of_ok hw] at h
    obtain ⟨rfl, ht⟩ | ht := exec_next_of_done hdone h
    · exact .inl ⟨(encode_of_decode_eq_ok hw).symm, ht⟩
    · exact .inr ⟨_, ht⟩

/-- Settles O25, by the host's move. -/
theorem onlyAResetLeavesDone : Obligations.OnlyAResetLeavesDone := by
  intro s t _ hdone h
  match hport : s.port with
  | [] =>
    rw [step_of_no_move hport] at h
    cases h
    exact .inl ⟨rfl, rfl, rfl, hdone⟩
  | .rst :: rest =>
    rw [step_of_rst hport] at h
    cases h
    exact .inr ⟨rfl, .inr (.inl rfl)⟩
  | .cutCommand w :: rest =>
    rw [step_of_cutCommand hport] at h
    cases h
    exact .inr ⟨rfl, .inr (.inr ⟨w, rfl⟩)⟩
  | .command w :: rest =>
    rw [step_of_command hport] at h
    obtain ⟨rfl, rfl⟩ | ⟨r, rfl⟩ := runWord_next_of_done (s := s.setPort rest) hdone h
    · exact .inr ⟨rfl, .inl rfl⟩
    · exact .inl ⟨rfl, rfl, rfl, hdone⟩

end Sys2Proof.Machine

namespace Sys2Proof.Machine

/-! ## Host conventions (spec/43_host_conventions.md)

A sequence of words is presented command by command, and what the pseudo-commands leave is put in terms of `absorbBytes` and
`finalize`. -/

/-! ### Presenting words -/

/-- A command answered with a next state is followed by the other words, presented there. -/
theorem presentAll_encode {i : Instr} (ws : List CmdWord) {s t : State} (h : exec i s = .next t) :
    presentAll (encode i :: ws) s = presentAll ws t := presentAll_of_exec ws (decode_encode i) h

/-- `RESET` leaves the same state from everywhere. -/
theorem presentAll_reset (ws : List CmdWord) (s : State) :
    presentAll (encode .reset :: ws) s = presentAll ws (respond .OK State.reset) :=
  -- The moves after it are the words presented next, whatever `s` had on its port.
  (presentAll_encode ws (exec_reset s)).trans rfl

theorem presentAll_update (b : Byte) (ws : List CmdWord) {s : State} (h : s.Ready) :
    presentAll (encode (.update b) :: ws) s = presentAll ws (respond .OK (absorbByte b s)) :=
  presentAll_encode ws (whenOpen_of_ready h)

theorem presentAll_updatef (b : Byte) {s : State} (h : s.Ready) :
    presentAll [encode (.updatef b)] s = .next ((respond .OK (absorbAndFinalize b s)).setPort []) :=
  presentAll_encode [] (whenOpen_of_ready h)

theorem presentAll_final {s : State} (h : s.Ready) :
    presentAll [encode .final] s = .next ((respond .OK (finalize s)).setPort []) :=
  presentAll_encode [] (whenOpen_of_ready h)

/-! ### `UPDATES m` (R102, R103) -/

theorem absorbBytes_respond (r : Response) (m : List Byte) (s : State) :
    absorbBytes m (respond r s) = (absorbBytes m s).setResp (some r) := absorbBytes_setResp m (some r) s

/-- What `UPDATES m` leaves: the bytes absorbed, and the response to the last word, if there is one. -/
def afterUpdates (m : List Byte) (s : State) : State :=
  (absorbBytes m s).setResp (if m = [] then s.resp else some .OK)

theorem afterUpdates_nil (s : State) : afterUpdates [] s = s := rfl

theorem afterUpdates_cons (b : Byte) (m : List Byte) (s : State) :
    afterUpdates (b :: m) s = afterUpdates m (respond .OK (absorbByte b s)) := by
  rw [afterUpdates, afterUpdates, respond_resp, ite_self, if_neg (List.cons_ne_nil b m), absorbBytes_respond,
    State.setResp_setResp, absorbBytes_cons]

theorem afterUpdates_ready (m : List Byte) {s : State} (h : s.Ready) : (afterUpdates m s).Ready :=
  ⟨(absorbBytes_hasReset m s).trans h.hasReset, (absorbBytes_phase m s).trans h.phase, absorbBytes_keeps_wf m h.memory⟩

theorem presentAll_updatesWords_append (m : List Byte) (ws : List CmdWord) {s : State} (h : s.Ready) :
    presentAll (updatesWords m ++ ws) s = presentAll ws (afterUpdates m s) := by
  induction m generalizing s with
  | nil => rfl
  | cons b m ih =>
    calc presentAll (updatesWords (b :: m) ++ ws) s
        = presentAll (updatesWords m ++ ws) (respond .OK (absorbByte b s)) := presentAll_update b _ h
      _ = presentAll ws (afterUpdates m (respond .OK (absorbByte b s))) := ih (h.absorb b)
      _ = presentAll ws (afterUpdates (b :: m) s) := by rw [afterUpdates_cons]

/-- Settles O51: each `UPDATE` absorbs its byte, and absorbing byte by byte is DOC0's `update`. -/
theorem updatesAbsorbTheSequence : Obligations.UpdatesAbsorbTheSequence := by
  intro m s h
  refine ⟨(afterUpdates m s).setPort [], ?_, ?_⟩
  · have hrun := presentAll_updatesWords_append m [] h
    rwa [List.append_nil] at hrun
  · rw [afterUpdates, absorbBytes_eq_updateSequence m h.memory]
    rfl

/-! ### `HASH m` and `DIGEST m` (R104, R112) -/

/-- What `UPDATES m; FINAL` leaves from a ready state. -/
theorem presentAll_updates_final (m : List Byte) {s : State} (h : s.Ready) :
    presentAll (updatesWords m ++ [encode .final]) s =
      .next ((respond .OK (finalize (absorbBytes m s))).setPort []) := by
  rw [presentAll_updatesWords_append m _ h, presentAll_final (afterUpdates_ready m h), afterUpdates, finalize_setResp]
  rfl

/-- `HASH m` does what `UPDATES m; FINAL` does: its `UPDATEF` is `UPDATE` and then `FINAL`. -/
theorem presentAll_hashWords (m : List Byte) {s : State} (h : s.Ready) :
    presentAll (hashWords m) s = presentAll (updatesWords m ++ [encode .final]) s := by
  induction m using hashWords.induct generalizing s with
  | case1 => rfl
  | case2 b =>
    rw [presentAll_updates_final [b] h]
    exact presentAll_updatef b h
  | case3 b c m ih =>
    calc presentAll (encode (.update b) :: hashWords (c :: m)) s
        = presentAll (hashWords (c :: m)) (respond .OK (absorbByte b s)) := presentAll_update b _ h
      _ = presentAll (updatesWords (c :: m) ++ [encode .final]) (respond .OK (absorbByte b s)) := ih (h.absorb b)
      _ = presentAll (updatesWords (b :: c :: m) ++ [encode .final]) s := (presentAll_update b _ h).symm

/-- What `DIGEST m` leaves, from any state. -/
def digested (m : List Byte) : State := respond .OK (finalize (absorbBytes m State.reset))

theorem respond_reset_ready : (respond .OK State.reset).Ready := resetCore_ready .OK State.reset

theorem presentAll_reset_updates_final (m : List Byte) (s : State) :
    presentAll (encode .reset :: (updatesWords m ++ [encode .final])) s = .next (digested m) := by
  have hport : (digested m).port = [] := by rw [digested, respond_port, finalize_port, absorbBytes_port]; rfl
  rw [presentAll_reset, presentAll_updates_final m respond_reset_ready, absorbBytes_respond, finalize_setResp, ← hport]
  rfl

theorem presentAll_digestWords (m : List Byte) (s : State) : presentAll (digestWords m) s = .next (digested m) :=
  calc presentAll (digestWords m) s
      = presentAll (hashWords m) (respond .OK State.reset) := presentAll_reset (hashWords m) s
    _ = presentAll (updatesWords m ++ [encode .final]) (respond .OK State.reset) :=
      presentAll_hashWords m respond_reset_ready
    _ = presentAll (encode .reset :: (updatesWords m ++ [encode .final])) s := (presentAll_reset _ s).symm
    _ = .next (digested m) := presentAll_reset_updates_final m s

theorem digestValid_digested (m : List Byte) : digestValid (digested m) = 1#1 :=
  (digestValid_eq_one_iff (digested m)).mpr (finalize_phase (absorbBytes m State.reset))

theorem messageDigest_digested (m : List Byte) : messageDigest (digested m) = some (digest (digested m)) :=
  if_pos (digestValid_digested m)

/-! ### The function computed (R115) -/

/-- The message and the padding that finalising appends after it are the padded message of R115. -/
theorem append_paddingBytes_eq_shaPadded (m : List Byte) :
    m ++ paddingBytes (absorbBytes m State.reset) = shaPadded m := by
  rw [paddingBytes, capturedLengthIsTheMessageLength, absorbBytes_reset_len, Nat.mod_mod, shaPadded, List.append_assoc,
    List.append_assoc]
  rfl

/-- Finalising absorbs the padding, so that after a reset the whole padded message is absorbed. -/
theorem digested_h (m : List Byte) : (digested m).h = shaRegs m := by
  rw [digested, respond_h, finalize_eq_absorbBytes (absorbBytes_keeps_wf m reset_memory_wf), State.setPhase_h,
    ← absorbBytes_append, append_paddingBytes_eq_shaPadded, absorbBytes_reset_h]
  rfl

/-- Settles O52: the digest's bytes are those of the registers. -/
theorem digestIsThatOfThePaddedMessage : Obligations.DigestIsThatOfThePaddedMessage := by
  intro m s _
  refine ⟨digested m, presentAll_digestWords m s, rfl, digestValid_digested m, ?_⟩
  rw [digestByte_list, digested_h]

/-! ### Chunks (R112) -/

theorem updatesWords_flatten (chunks : List (List Byte)) :
    updatesWords chunks.flatten = chunks.flatMap updatesWords := List.map_flatten

/-- Settles O53: the chunks' words are those of the whole message, and both sequences leave `digested`. -/
theorem chunkingDoesNotChangeTheDigest : Obligations.ChunkingDoesNotChangeTheDigest := by
  intro chunks s
  refine ⟨digested chunks.flatten, digested chunks.flatten, presentAll_digestWords _ s, ?_, messageDigest_digested _, rfl⟩
  rw [← updatesWords_flatten, presentAll_reset_updates_final]

/-! ### Words before a reset (R114) -/

theorem runWord_next_port {w : CmdWord} {s t : State} (h : runWord w s = .next t) : t.port = s.port := by
  cases hw : decode w with
  | ok i => exact exec_next_port (by rwa [runWord_of_ok hw] at h)
  | error e =>
    rw [runWord_of_error hw] at h
    obtain ⟨_, rfl⟩ := answerIllegal_next h
    rfl

/-- From a state that meets the invariant any words are all answered, and the words after them are presented in a state
that meets it again. -/
theorem exists_presentAll_append (ws ws' : List CmdWord) {s : State} (h : s.Inv) :
    ∃ t, t.Inv ∧ presentAll (ws ++ ws') s = presentAll ws' t := by
  induction ws generalizing s with
  | nil => exact ⟨s, h, rfl⟩
  | cons w ws ih =>
    have hport := h.setPort ((ws ++ ws').map .command)
    obtain ⟨t, ht, _⟩ := phaseMachineTable w _ hport
    obtain ⟨u, hu, hrun⟩ := ih (runWord_keeps_inv hport ht)
    exact ⟨u, hu, (presentAll_cons (ws ++ ws') ht (runWord_next_port ht)).trans hrun⟩

/-- Settles O54: the words before are all answered, and `DIGEST m` leaves `digested m` from every state. -/
theorem resetForgetsEverythingBefore : Obligations.ResetForgetsEverythingBefore := by
  intro ws m s h
  obtain ⟨t, _, hrun⟩ := exists_presentAll_append ws (digestWords m) h
  exact ⟨digested m, digested m, hrun.trans (presentAll_digestWords m t), presentAll_digestWords m State.reset,
    messageDigest_digested m, rfl⟩

/-! ### Hex text (R108, R109, R113) -/

theorem hexValue_hexDigit (n : BitVec 4) : hexValue (hexDigit n) = some n := by
  revert n
  decide

theorem hexFromBytes_cons (b : Byte) (m : List Byte) :
    hexFromBytes (b :: m) = hexDigit (b.extractLsb' 4 4) :: hexDigit (b.extractLsb' 0 4) :: hexFromBytes m := rfl

theorem hexFromBytes_length (m : List Byte) : (hexFromBytes m).length = 2 * m.length := by
  induction m with
  | nil => rfl
  | cons b m ih => rw [hexFromBytes_cons, List.length_cons, List.length_cons, List.length_cons, ih]; omega

theorem bytesFromHexPairs_hexFromBytes (m : List Byte) : bytesFromHexPairs (hexFromBytes m) = some m := by
  induction m with
  | nil => rfl
  | cons b m ih =>
    have hdigits : b.extractLsb' 4 4 ++ b.extractLsb' 0 4 = b :=
      (BitVec.extractLsb'_append_extractLsb'_eq_extractLsb' rfl).trans BitVec.extractLsb'_eq_self
    simp only [hexFromBytes_cons, bytesFromHexPairs, hexValue_hexDigit, ih, hdigits]

/-- The text of bytes has an even length, so no digit is put before it. -/
theorem bytesFromHex_hexFromBytes (m : List Byte) : bytesFromHex (hexFromBytes m) = some m := by
  have heven : ¬ (hexFromBytes m).length % 2 = 1 := by rw [hexFromBytes_length]; omega
  rw [bytesFromHex, if_neg heven, bytesFromHexPairs_hexFromBytes]

/-- Settles O55: the digest's text is that of the 20 bytes of the registers. -/
theorem hexTextOfTheDigest : Obligations.HexTextOfTheDigest := by
  refine ⟨bytesFromHex_hexFromBytes, fun s => ⟨hexFromBytes_length (hashBytes s.h), ?_⟩⟩
  rw [digestText, bytesFromHex_hexFromBytes, digestByte_list]

end Sys2Proof.Machine

namespace Sys2Proof.Machine

/-! ## Exceptions (spec/60_exceptions.md) -/

theorem whenOpen_next_error_or_ok {k : State → State} {s t : State} (h : whenOpen k s = .next t) :
    (s.phase = .DONE ∧ t = respond .InvalidState s) ∨ (s.phase ≠ .DONE ∧ t.resp = some .OK) := by
  obtain ⟨_, herror | ⟨hready, rfl⟩⟩ := whenOpen_next h
  · exact .inl herror
  · exact .inr ⟨by rw [hready.phase]; decide, rfl⟩

/-- A command that completes either is in the wrong phase and leaves the response `InvalidState` alone, or answers `OK`. -/
theorem exec_next_error_or_ok {i : Instr} {s t : State} (h : exec i s = .next t) :
    ((i ≠ .reset ∧ s.phase = .DONE) ∧ t = respond .InvalidState s) ∨
    (¬ (i ≠ .reset ∧ s.phase = .DONE) ∧ t.resp = some .OK) := by
  cases i with
  | reset => rw [exec_reset] at h; cases h; exact .inr ⟨fun hreset => hreset.1 rfl, rfl⟩
  | update b => simpa using whenOpen_next_error_or_ok h
  | updatef b => simpa using whenOpen_next_error_or_ok h
  | final => simpa using whenOpen_next_error_or_ok h

/-! ### `InvalidState` (R118) -/

theorem exec_of_done {i : Instr} {s : State} (hi : i ≠ .reset) (hs : s.hasReset = true) (hdone : s.phase = .DONE) :
    exec i s = .next (respond .InvalidState s) := by
  cases i with
  | reset => exact absurd rfl hi
  | update b => exact whenOpen_of_done hs hdone
  | updatef b => exact whenOpen_of_done hs hdone
  | final => exact whenOpen_of_done hs hdone

theorem exec_next_resp_eq_invalidState_iff {i : Instr} {s t : State} (h : exec i s = .next t) :
    t.resp = some .InvalidState ↔ i ≠ .reset ∧ s.phase = .DONE := by
  obtain ⟨hwrong, rfl⟩ | ⟨hright, hok⟩ := exec_next_error_or_ok h
  · exact iff_of_true rfl hwrong
  · exact iff_of_false (by rw [hok]; decide) hright

/-- Settles O22: in `DONE` the check of the phase fails for each command but `RESET`, and an illegal word does not reach
that check. -/
theorem invalidStateExactlyAfterFinalisation : Obligations.InvalidStateExactlyAfterFinalisation := by
  intro i s hs
  refine ⟨fun hi hdone => exec_of_done hi hs hdone, fun t h => exec_next_resp_eq_invalidState_iff h, fun w e t hw h => ?_⟩
  rw [runWord_of_error hw] at h
  obtain ⟨_, rfl⟩ := answerIllegal_next h
  rw [respond_resp]
  decide

/-! ### What an error records (R119) -/

/-- Every error is raised before any effect. -/
theorem runWord_next_of_resp_ne_ok {w : CmdWord} {s t : State} (h : runWord w s = .next t) (herror : t.resp ≠ some .OK) :
    ∃ r, t = respond r s := by
  cases hw : decode w with
  | error e =>
    rw [runWord_of_error hw] at h
    exact ⟨_, (answerIllegal_next h).2⟩
  | ok i =>
    rw [runWord_of_ok hw] at h
    obtain ⟨_, ht⟩ | ⟨_, hok⟩ := exec_next_error_or_ok h
    · exact ⟨_, ht⟩
    · exact absurd hok herror

/-- Settles O23: the response is all that an error changes; neither the outputs nor a later word read it. -/
theorem errorsRecordNothing : Obligations.ErrorsRecordNothing := by
  intro w s t h herror
  obtain ⟨r, rfl⟩ := runWord_next_of_resp_ne_ok h herror
  exact ⟨rfl, rfl, rfl, fun w' => runWord_setResp w' (some r) s⟩

end Sys2Proof.Machine

namespace Sys2Proof.Machine

/-! ## Reset and hazards (spec/70_reset_and_hazards.md) -/

/-! ### Blocks counted by a command (R147) -/

theorem absorbByte_bits (b : Byte) {s : State} (h : s.len < 64) :
    (absorbByte b s).bits = s.bits + (if s.len = 63 then 512 else 0) := by
  rcases absorbByte_cases b s h with ⟨hroom, he⟩ | ⟨hfull, _, _, he⟩
  · rw [he, if_neg (by omega), State.setPending_bits, add_zero]
  · rw [he, if_pos hfull, State.setPending_bits, consumeBlock_bits]

/-- `Finalize` counts two blocks where the length field does not fit after the pending bytes and `0x80`. -/
theorem finalize_bits_of_len {s : State} (h : s.len < 64) :
    (finalize s).bits = s.bits + (if s.len ≤ 55 then 512 else 1024) := by
  rw [finalize_bits, paddedMessage_length s h]
  split <;> rfl

/-- The byte moves the boundary of `finalize_bits_of_len` by one. The byte that completes a block has it counted and leaves
`Finalize` an empty buffer, which is one block more. -/
theorem absorbAndFinalize_bits (b : Byte) {s : State} (h : s.len < 64) :
    (absorbAndFinalize b s).bits = s.bits + (if s.len ≤ 54 then 512 else 1024) := by
  have hbits : (absorbAndFinalize b s).bits =
      (absorbByte b s).bits + (if (absorbByte b s).len ≤ 55 then 512 else 1024) :=
    finalize_bits_of_len (absorbByte_keeps_wf b h)
  rw [hbits, absorbByte_bits b h]
  rcases absorbByte_cases b s h with ⟨hroom, he⟩ | ⟨hfull, _, _, he⟩
  · have hlen : (absorbByte b s).len = s.len + 1 := by
      rw [he, State.len_eq, State.setPending_pending, List.length_append, ← State.len_eq, List.length_singleton]
    simp only [hlen, Nat.reduceLeDiff, if_neg hroom.ne, add_zero]
  · have hlen : (absorbByte b s).len = 0 := by rw [he]; rfl
    rw [hlen, hfull, BitVec.add_assoc]
    rfl

/-- Settles O19: after a reset, in `OPEN` with an entry left, each command does what its operation does to `BITS`. -/
theorem blocksCountedPerCommand : Obligations.BlocksCountedPerCommand := fun b _ hready =>
  ⟨⟨_, whenOpen_of_ready hready, absorbByte_bits b hready.memory⟩,
    ⟨_, whenOpen_of_ready hready, finalize_bits_of_len hready.memory⟩,
    ⟨_, whenOpen_of_ready hready, absorbAndFinalize_bits b hready.memory⟩⟩

/-! ### Stops (R136, R33) -/

theorem whenOpen_of_not_hasReset {k : State → State} {s : State} (h : s.hasReset = false) :
    whenOpen k s = .refused .beforeFirstReset := by
  simp [whenOpen, h]

theorem whenOpen_of_no_entry {k : State → State} {s : State} (h : s.hasReset = true) (hopen : s.phase = .OPEN)
    (hlen : 64 ≤ s.len) : whenOpen k s = .fault .noBufferEntry := by
  simp [whenOpen, h, hopen, hlen]

/-- All that `whenOpen` can answer, in the order of its checks. -/
theorem whenOpen_cases (k : State → State) (s : State) :
    (s.hasReset = false ∧ whenOpen k s = .refused .beforeFirstReset) ∨
    (s.hasReset = true ∧ s.phase = .OPEN ∧ 64 ≤ s.len ∧ whenOpen k s = .fault .noBufferEntry) ∨
    (s.hasReset = true ∧ (s.phase = .OPEN → s.len < 64) ∧ ∃ t, whenOpen k s = .next t) := by
  cases hreset : s.hasReset with
  | false => exact .inl ⟨rfl, whenOpen_of_not_hasReset hreset⟩
  | true =>
    cases hphase : s.phase with
    | DONE => exact .inr (.inr ⟨rfl, nofun, _, whenOpen_of_done hreset hphase⟩)
    | OPEN =>
      rcases Nat.lt_or_ge s.len 64 with hroom | hfull
      · exact .inr (.inr ⟨rfl, fun _ => hroom, _, whenOpen_of_ready ⟨hreset, hphase, hroom⟩⟩)
      · exact .inr (.inl ⟨rfl, rfl, hfull, whenOpen_of_no_entry hreset hphase hfull⟩)

theorem whenOpen_eq_refused_iff {k : State → State} {s : State} {r : Refusal} :
    whenOpen k s = .refused r ↔ s.hasReset = false ∧ r = .beforeFirstReset := by
  rcases whenOpen_cases k s with ⟨hreset, he⟩ | ⟨hreset, _, _, he⟩ | ⟨hreset, _, _, he⟩ <;>
    simp [he, hreset, eq_comm]

theorem whenOpen_eq_fault_iff {k : State → State} {s : State} {f : Fault} :
    whenOpen k s = .fault f ↔ s.hasReset = true ∧ s.phase = .OPEN ∧ 64 ≤ s.len ∧ f = .noBufferEntry := by
  rcases whenOpen_cases k s with ⟨hreset, he⟩ | ⟨hreset, hopen, hfull, he⟩ | ⟨hreset, hroom, _, he⟩
  · simp [he, hreset]
  · simp [he, hreset, hopen, hfull]
  · rw [he]
    exact iff_of_false nofun fun ⟨_, hopen, hfull, _⟩ => absurd (hroom hopen) hfull.not_gt

/-- Every command but `RESET` runs an operation under the one check. -/
theorem exists_exec_eq_whenOpen {i : Instr} (h : i ≠ .reset) : ∃ k, exec i = whenOpen k := by
  cases i with
  | reset => exact absurd rfl h
  | update b => exact ⟨absorbByte b, rfl⟩
  | updatef b => exact ⟨absorbAndFinalize b, rfl⟩
  | final => exact ⟨finalize, rfl⟩

/-- Settles O31: `RESET` always completes, and for the other commands the check decides. -/
theorem commandsStopExactlyHere : Obligations.CommandsStopExactlyHere := by
  intro i s
  by_cases hi : i = .reset
  · subst hi
    simp [exec_reset]
  · obtain ⟨k, hk⟩ := exists_exec_eq_whenOpen hi
    simp [hk, hi, whenOpen_eq_refused_iff, whenOpen_eq_fault_iff]

/-! ### Reset by input and by command (R132 to R136) -/

/-- Settles O10: both moves are the hardware reset, which is `RESET`'s reset with no response presented. -/
theorem resetInputActsAsTheResetCommand : Obligations.ResetInputActsAsTheResetCommand := by
  intro s w rest hport
  have hstep : step s = .next (hardwareReset (s.setPort rest)) := hport.elim step_of_rst step_of_cutCommand
  exact ⟨_, respond .OK (resetCore (s.setPort rest)), hstep, exec_reset _, rfl, rfl, hardwareReset_eq _⟩

/-- Settles O11: the ports are functions of the registers and the phase. -/
theorem resetStateHasTheListedValues : Obligations.ResetStateHasTheListedValues :=
  ⟨rfl, rfl, rfl, rfl, rfl, rfl, rfl, rfl, rfl, hashBits_iv, rfl, rfl⟩

/-- Before the first reset no word but that of `RESET` has a result: a command fails the check, and an illegal word is not
answered. -/
theorem runWord_of_not_hasReset {w : CmdWord} {s : State} (hs : s.hasReset = false) (hw : w ≠ encode .reset) :
    runWord w s = .refused .beforeFirstReset := by
  cases hdecode : decode w with
  | ok i =>
    have hi : i ≠ .reset := by
      rintro rfl
      exact hw (encode_of_decode_eq_ok hdecode).symm
    rw [runWord_of_ok hdecode]
    exact ((commandsStopExactlyHere i s).1 _).mpr ⟨hi, hs, rfl⟩
  | error e => rw [runWord_of_error hdecode, answerIllegal, if_pos hs]

/-- Settles O13: `RESET` reads no state, and every other word is refused. -/
theorem beforeTheFirstResetOnlyResetHasAResult : Obligations.BeforeTheFirstResetOnlyResetHasAResult := by
  intro s w hs
  refine ⟨?_, fun hw => runWord_of_not_hasReset hs hw⟩
  rintro rfl
  exact runWord_of_ok (decode_encode .reset) s

end Sys2Proof.Machine

namespace Sys2Proof.Machine

/-! ## Encoding: the other direction of the round trip (spec/30_encoding.md R51 to R55) -/

/-- All 256 operands are legal data (R51). -/
@[simp] theorem instr_wellFormed (i : Instr) : i.wellFormed = true := by
  cases i <;> rfl

/-- Settles O2: each answer of the decoder fixes both fields of the word, and they are the encoding's. -/
theorem encodeOfDecodeIsTheWord : Obligations.EncodeOfDecodeIsTheWord :=
  fun _ i h => ⟨encode_of_decode_eq_ok h, instr_wellFormed i⟩

end Sys2Proof.Machine
